-- ==== Sys2Proof/Word.lean ====
section
/-! DEFINITION. The word types of the machine (spec/00_scope.md R9 to R11) and the number of the flag register. -/

namespace Sys2Proof

/-- A byte, the spec's u8 (R10). -/
abbrev Byte := BitVec 8

/-- A 16-bit value, the spec's u16 (R10): an opcode, the pc, the index register, a stack entry. -/
abbrev Word := BitVec 16

/-- The 12-bit address immediate `nnn` of an opcode (R56). -/
abbrev Addr12 := BitVec 12

/-- The number of a general register; every opcode nibble is one (R18, R134). -/
abbrev RegIdx := Fin 16

/-- The index of a framebuffer cell, `px + 64 * py` (R27). -/
abbrev CellIdx := Fin 2048

/-- The flag register VF is V[15] (R11, R19). -/
abbrev VF : RegIdx := 15

end Sys2Proof
end

