-- ==== Sys2Proof/Config.lean ====
section
/-! DEFINITION. The fixed parameters of the hardware (spec/00_scope.md R7) and the values the spec leaves open (R8, R77,
R138), which are opaque: nothing in Lean can evaluate them. -/

namespace Sys2Proof.Config

/-- MEM_SIZE: addresses 0..4095 exist (R7, R17). -/
@[simp] def memSize : Nat := 4096

/-- LOAD_BASE: where a program is loaded, and the pc after reset (R7, R37). -/
@[simp] def loadBase : Nat := 0x200

/-- LOAD_MAX: the largest program, 4096 - 0x200 bytes (R7, R73). -/
@[simp] def loadMax : Nat := memSize - loadBase

/-- The 80 bytes of the font table, glyph k at bytes 5k..5k+4 (R8, R37, R48). The spec lists no value: FONT is a parameter
(92_eei_decisions.md D11; log 1). -/
opaque font : Vector Byte 80

/-- The byte `random_byte` of the n-th free draw: any of 256 values under no law (R77, D10; log 2). -/
opaque rnd : Nat → Byte

/-- A place of the state whose contents a step fault leaves unspecified (R138). -/
inductive Location where
  | pc
  | I
  | sp
  | DT
  | ST
  | reg (r : RegIdx)
  | entry (k : Fin 16)
  | cell (k : CellIdx)
  | key (k : Fin 16)
  | byte (a : Nat)
  deriving DecidableEq, Repr

/-- Which of the candidate contents a location holds after the step fault that is the n-th free draw (R138, D4; log 3). -/
opaque residue : Nat → Location → Nat

end Sys2Proof.Config
end

