-- ==== Sys2Proof/Syntax.lean ====
section
/-! DEFINITION. The instructions: one constructor per row of spec/opcode_table.json, in the order of R61. -/

namespace Sys2Proof

/-- The 35 instructions of R61, with the operand fields of R56 and R57. `x` and `y` are register numbers, `nn` and `nnn`
unsigned immediates (R58). SHR and SHL carry no `y`: bits 7:4 of their words have no effect (R62). `n` is the row count of
DRAW, a count 0..15 (R58); `Instr.wellFormed` checks that bound. -/
inductive Instr where
  | nop
  | cls
  | ret
  | jmp (nnn : Addr12)
  | call (nnn : Addr12)
  | skipEqImm (x : RegIdx) (nn : Byte)
  | skipNeqImm (x : RegIdx) (nn : Byte)
  | skipEqReg (x y : RegIdx)
  | loadImm (x : RegIdx) (nn : Byte)
  | addImm (x : RegIdx) (nn : Byte)
  | mov (x y : RegIdx)
  | or (x y : RegIdx)
  | and (x y : RegIdx)
  | xor (x y : RegIdx)
  | add (x y : RegIdx)
  | sub (x y : RegIdx)
  | shr (x : RegIdx)
  | subn (x y : RegIdx)
  | shl (x : RegIdx)
  | skipNeqReg (x y : RegIdx)
  | loadI (nnn : Addr12)
  | jmpOffset (nnn : Addr12)
  | rand (x : RegIdx) (nn : Byte)
  | draw (x y : RegIdx) (n : Nat)
  | skipKey (x : RegIdx)
  | skipNokey (x : RegIdx)
  | loadDt (x : RegIdx)
  | waitKey (x : RegIdx)
  | setDt (x : RegIdx)
  | setSt (x : RegIdx)
  | addI (x : RegIdx)
  | fontAddr (x : RegIdx)
  | bcd (x : RegIdx)
  | storeRegs (x : RegIdx)
  | loadRegs (x : RegIdx)
  deriving DecidableEq, Repr

end Sys2Proof
end

