-- ==== Sys2Proof/WellFormed.lean ====
section
/-! DEFINITION. Which instruction terms are instructions of the hardware. Register numbers and immediates carry their
bounds in their types (R59); the one check left is DRAW's row count, four bits of the word (R56, R58). -/

namespace Sys2Proof

/-- The operands fit the fields of the encoding: DRAW's `n` is 0..15 (R58, R114). -/
def Instr.wellFormed : Instr → Bool
  | .draw _ _ n => n ≤ 15
  | .nop | .cls | .ret | .jmp _ | .call _ | .skipEqImm _ _ | .skipNeqImm _ _ | .skipEqReg _ _ | .loadImm _ _
  | .addImm _ _ | .mov _ _ | .or _ _ | .and _ _ | .xor _ _ | .add _ _ | .sub _ _ | .shr _ | .subn _ _ | .shl _
  | .skipNeqReg _ _ | .loadI _ | .jmpOffset _ | .rand _ _ | .skipKey _ | .skipNokey _ | .loadDt _ | .waitKey _
  | .setDt _ | .setSt _ | .addI _ | .fontAddr _ | .bcd _ | .storeRegs _ | .loadRegs _ => true

end Sys2Proof
end

