-- ==== Sys2Proof/Decode.lean ====
section
/-! DEFINITION. The decoder (spec/30_encoding.md R55 to R65), total on any bytes, and after it the encoder, both written from
the opcode map of R61. -/

namespace Sys2Proof

/-- Why the decoder gives no instruction. -/
inductive DecodeError where
  /-- The word matches no row of R61: UNIMPLEMENTED_OPCODE (R63, R133). -/
  | unimplemented (op : Word)
  /-- Fewer than the two bytes of an instruction (R55); a fetch always reads two. -/
  | truncated
  deriving DecidableEq, Repr

/-- The two bytes of a word, high byte first (R40, R55). -/
def wordOfBytes (hi lo : Byte) : Word := hi ++ lo

/-- The byte at the lower address of a stored word (R40, R41). -/
def highByte (w : Word) : Byte := w.extractLsb' 8 8

/-- The byte at the higher address of a stored word (R40, R41). -/
def lowByte (w : Word) : Byte := w.extractLsb' 0 8

/-- d1 = op[15:12], the major opcode (R9, R56). -/
def fieldD1 (op : Word) : BitVec 4 := op.extractLsb' 12 4

/-- x = op[11:8] (R56). -/
def fieldX (op : Word) : BitVec 4 := op.extractLsb' 8 4

/-- y = op[7:4] (R56). -/
def fieldY (op : Word) : BitVec 4 := op.extractLsb' 4 4

/-- n = op[3:0] (R56). -/
def fieldN (op : Word) : BitVec 4 := op.extractLsb' 0 4

/-- nn = op[7:0] (R56). -/
def fieldNn (op : Word) : Byte := op.extractLsb' 0 8

/-- nnn = op[11:0] (R56). -/
def fieldNnn (op : Word) : Addr12 := op.extractLsb' 0 12

/-- A nibble names a register, always a valid one (R59, R134). -/
def regOfNibble (b : BitVec 4) : RegIdx := b.toFin

/-- The decode function of R60, in its order. -/
def decodeWord (op : Word) : Except DecodeError Instr :=
  match (fieldD1 op).toNat with
  | 0x0 =>
    if fieldNnn op = 0x000 then .ok .nop
    else if fieldNnn op = 0x0E0 then .ok .cls
    else if fieldNnn op = 0x0EE then .ok .ret
    else .error (.unimplemented op)
  | 0x1 => .ok (.jmp (fieldNnn op))
  | 0x2 => .ok (.call (fieldNnn op))
  | 0x3 => .ok (.skipEqImm (regOfNibble (fieldX op)) (fieldNn op))
  | 0x4 => .ok (.skipNeqImm (regOfNibble (fieldX op)) (fieldNn op))
  | 0x5 =>
    match (fieldN op).toNat with
    | 0x0 => .ok (.skipEqReg (regOfNibble (fieldX op)) (regOfNibble (fieldY op)))
    | _ => .error (.unimplemented op)
  | 0x6 => .ok (.loadImm (regOfNibble (fieldX op)) (fieldNn op))
  | 0x7 => .ok (.addImm (regOfNibble (fieldX op)) (fieldNn op))
  | 0x8 =>
    match (fieldN op).toNat with
    | 0x0 => .ok (.mov (regOfNibble (fieldX op)) (regOfNibble (fieldY op)))
    | 0x1 => .ok (.or (regOfNibble (fieldX op)) (regOfNibble (fieldY op)))
    | 0x2 => .ok (.and (regOfNibble (fieldX op)) (regOfNibble (fieldY op)))
    | 0x3 => .ok (.xor (regOfNibble (fieldX op)) (regOfNibble (fieldY op)))
    | 0x4 => .ok (.add (regOfNibble (fieldX op)) (regOfNibble (fieldY op)))
    | 0x5 => .ok (.sub (regOfNibble (fieldX op)) (regOfNibble (fieldY op)))
    | 0x6 => .ok (.shr (regOfNibble (fieldX op)))
    | 0x7 => .ok (.subn (regOfNibble (fieldX op)) (regOfNibble (fieldY op)))
    | 0xE => .ok (.shl (regOfNibble (fieldX op)))
    | _ => .error (.unimplemented op)
  | 0x9 =>
    match (fieldN op).toNat with
    | 0x0 => .ok (.skipNeqReg (regOfNibble (fieldX op)) (regOfNibble (fieldY op)))
    | _ => .error (.unimplemented op)
  | 0xA => .ok (.loadI (fieldNnn op))
  | 0xB => .ok (.jmpOffset (fieldNnn op))
  | 0xC => .ok (.rand (regOfNibble (fieldX op)) (fieldNn op))
  | 0xD => .ok (.draw (regOfNibble (fieldX op)) (regOfNibble (fieldY op)) (fieldN op).toNat)
  | 0xE =>
    if fieldNn op = 0x9E then .ok (.skipKey (regOfNibble (fieldX op)))
    else if fieldNn op = 0xA1 then .ok (.skipNokey (regOfNibble (fieldX op)))
    else .error (.unimplemented op)
  | 0xF =>
    if fieldNn op = 0x07 then .ok (.loadDt (regOfNibble (fieldX op)))
    else if fieldNn op = 0x0A then .ok (.waitKey (regOfNibble (fieldX op)))
    else if fieldNn op = 0x15 then .ok (.setDt (regOfNibble (fieldX op)))
    else if fieldNn op = 0x18 then .ok (.setSt (regOfNibble (fieldX op)))
    else if fieldNn op = 0x1E then .ok (.addI (regOfNibble (fieldX op)))
    else if fieldNn op = 0x29 then .ok (.fontAddr (regOfNibble (fieldX op)))
    else if fieldNn op = 0x33 then .ok (.bcd (regOfNibble (fieldX op)))
    else if fieldNn op = 0x55 then .ok (.storeRegs (regOfNibble (fieldX op)))
    else if fieldNn op = 0x65 then .ok (.loadRegs (regOfNibble (fieldX op)))
    else .error (.unimplemented op)
  | _ => .error (.unimplemented op)

/-- The decoder on bytes: the instruction at their head, and the rest (R55, R65). -/
def decodeBytes : List Byte → Except DecodeError (Instr × List Byte)
  | hi :: lo :: rest => (decodeWord (wordOfBytes hi lo)).map fun i => (i, rest)
  | _ => .error .truncated

/-- The instruction the decoder reads from the table's bits `w` of an instruction, all `nbits` of them (the table gives every
row 16), laid out high byte first (R40; log 12). -/
def decodeTableWord (nbits w : Nat) : Option Instr :=
  let op : Word := BitVec.ofNat 16 (w % 2 ^ nbits)
  match decodeBytes [highByte op, lowByte op] with
  | .ok (i, _) => some i
  | .error _ => none

/-! ### The encoder -/

/-- The nibble of a register number (R59). -/
def nibbleOfReg (r : RegIdx) : BitVec 4 := BitVec.ofFin r

/-- Four nibbles, d1 first (R56). -/
def wordOfNibbles (d1 d2 d3 d4 : BitVec 4) : Word := d1 ++ d2 ++ d3 ++ d4

/-- A major opcode and the 12-bit immediate: format NNN (R57). -/
def wordNnn (d1 : BitVec 4) (nnn : Addr12) : Word := d1 ++ nnn

/-- A major opcode, a register and a byte: formats XNN (an immediate) and X (a minor opcode) (R57). -/
def wordXnn (d1 : BitVec 4) (x : RegIdx) (nn : Byte) : Word := d1 ++ nibbleOfReg x ++ nn

/-- The word of an instruction, the fixed nibbles of R61 and the operand fields of R56; SHR and SHL with y = 0, as the
assembler of R66 writes them. DRAW's `n` is taken modulo 16; `Instr.wellFormed` keeps it below. -/
def encode : Instr → Word
  | .nop => 0x0000
  | .cls => 0x00E0
  | .ret => 0x00EE
  | .jmp nnn => wordNnn 0x1 nnn
  | .call nnn => wordNnn 0x2 nnn
  | .skipEqImm x nn => wordXnn 0x3 x nn
  | .skipNeqImm x nn => wordXnn 0x4 x nn
  | .skipEqReg x y => wordOfNibbles 0x5 (nibbleOfReg x) (nibbleOfReg y) 0x0
  | .loadImm x nn => wordXnn 0x6 x nn
  | .addImm x nn => wordXnn 0x7 x nn
  | .mov x y => wordOfNibbles 0x8 (nibbleOfReg x) (nibbleOfReg y) 0x0
  | .or x y => wordOfNibbles 0x8 (nibbleOfReg x) (nibbleOfReg y) 0x1
  | .and x y => wordOfNibbles 0x8 (nibbleOfReg x) (nibbleOfReg y) 0x2
  | .xor x y => wordOfNibbles 0x8 (nibbleOfReg x) (nibbleOfReg y) 0x3
  | .add x y => wordOfNibbles 0x8 (nibbleOfReg x) (nibbleOfReg y) 0x4
  | .sub x y => wordOfNibbles 0x8 (nibbleOfReg x) (nibbleOfReg y) 0x5
  | .shr x => wordOfNibbles 0x8 (nibbleOfReg x) 0x0 0x6
  | .subn x y => wordOfNibbles 0x8 (nibbleOfReg x) (nibbleOfReg y) 0x7
  | .shl x => wordOfNibbles 0x8 (nibbleOfReg x) 0x0 0xE
  | .skipNeqReg x y => wordOfNibbles 0x9 (nibbleOfReg x) (nibbleOfReg y) 0x0
  | .loadI nnn => wordNnn 0xA nnn
  | .jmpOffset nnn => wordNnn 0xB nnn
  | .rand x nn => wordXnn 0xC x nn
  | .draw x y n => wordOfNibbles 0xD (nibbleOfReg x) (nibbleOfReg y) (BitVec.ofNat 4 n)
  | .skipKey x => wordXnn 0xE x 0x9E
  | .skipNokey x => wordXnn 0xE x 0xA1
  | .loadDt x => wordXnn 0xF x 0x07
  | .waitKey x => wordXnn 0xF x 0x0A
  | .setDt x => wordXnn 0xF x 0x15
  | .setSt x => wordXnn 0xF x 0x18
  | .addI x => wordXnn 0xF x 0x1E
  | .fontAddr x => wordXnn 0xF x 0x29
  | .bcd x => wordXnn 0xF x 0x33
  | .storeRegs x => wordXnn 0xF x 0x55
  | .loadRegs x => wordXnn 0xF x 0x65

/-! ### The match and mask columns of R61 -/

/-- The `match` and `mask` of an instruction's row of R61. -/
def tableRow : Instr → Word × Word
  | .nop => (0x0000, 0xFFFF)
  | .cls => (0x00E0, 0xFFFF)
  | .ret => (0x00EE, 0xFFFF)
  | .jmp _ => (0x1000, 0xF000)
  | .call _ => (0x2000, 0xF000)
  | .skipEqImm _ _ => (0x3000, 0xF000)
  | .skipNeqImm _ _ => (0x4000, 0xF000)
  | .skipEqReg _ _ => (0x5000, 0xF00F)
  | .loadImm _ _ => (0x6000, 0xF000)
  | .addImm _ _ => (0x7000, 0xF000)
  | .mov _ _ => (0x8000, 0xF00F)
  | .or _ _ => (0x8001, 0xF00F)
  | .and _ _ => (0x8002, 0xF00F)
  | .xor _ _ => (0x8003, 0xF00F)
  | .add _ _ => (0x8004, 0xF00F)
  | .sub _ _ => (0x8005, 0xF00F)
  | .shr _ => (0x8006, 0xF00F)
  | .subn _ _ => (0x8007, 0xF00F)
  | .shl _ => (0x800E, 0xF00F)
  | .skipNeqReg _ _ => (0x9000, 0xF00F)
  | .loadI _ => (0xA000, 0xF000)
  | .jmpOffset _ => (0xB000, 0xF000)
  | .rand _ _ => (0xC000, 0xF000)
  | .draw _ _ _ => (0xD000, 0xF000)
  | .skipKey _ => (0xE09E, 0xF0FF)
  | .skipNokey _ => (0xE0A1, 0xF0FF)
  | .loadDt _ => (0xF007, 0xF0FF)
  | .waitKey _ => (0xF00A, 0xF0FF)
  | .setDt _ => (0xF015, 0xF0FF)
  | .setSt _ => (0xF018, 0xF0FF)
  | .addI _ => (0xF01E, 0xF0FF)
  | .fontAddr _ => (0xF029, 0xF0FF)
  | .bcd _ => (0xF033, 0xF0FF)
  | .storeRegs _ => (0xF055, 0xF0FF)
  | .loadRegs _ => (0xF065, 0xF0FF)

/-- The 35 rows of R61, by one instruction of each row. -/
def rowSamples : List Instr :=
  List.append [.nop, .cls, .ret, .jmp 0, .call 0, .skipEqImm 0 0, .skipNeqImm 0 0, .skipEqReg 0 0, .loadImm 0 0]
    (List.append [.addImm 0 0, .mov 0 0, .or 0 0, .and 0 0, .xor 0 0, .add 0 0, .sub 0 0, .shr 0, .subn 0 0, .shl 0]
      (List.append [.skipNeqReg 0 0, .loadI 0, .jmpOffset 0, .rand 0 0, .draw 0 0 0, .skipKey 0, .skipNokey 0]
        [.loadDt 0, .waitKey 0, .setDt 0, .setSt 0, .addI 0, .fontAddr 0, .bcd 0, .storeRegs 0, .loadRegs 0]))

/-- The match and mask columns of R61 as a list, in the table's order. -/
def opcodeTable : List (Word × Word) := rowSamples.map tableRow

/-- "A word `w` selects a row when `w AND mask = match`" (R61). -/
def selects (w : Word) (row : Word × Word) : Bool := w &&& row.2 == row.1

end Sys2Proof
end

