-- ==== Sys2Proof/Machine/State.lean ====
section
/-! DEFINITION. The machine's state (spec/10_state.md R16 to R37), the fault record (spec/60_exceptions.md R133, R135) and
the state after reset (R37). -/

namespace Sys2Proof.Machine

/-- Why a step could stop with no next state: no reason exists. Every fault of the spec (R133) is TAKEN: it latches HALTED
with its record in a next state (R137; log 4). Nobody raises anything here, which is safe: nothing is cut short. -/
inductive Fault : Type
  deriving DecidableEq, Repr

/-- Why an instruction could have no meaning. -/
inductive Refusal where
  /-- An instruction without a meaning yet, by its mnemonic. Raised by an arm of `exec` only (no arm does now); safe: the run
  stops where the hardware goes on. -/
  | notModelled (mnemonic : String)
  deriving DecidableEq, Repr

/-- The causes of R133, with its codes in `FaultCode.number`. -/
inductive FaultCode where
  /-- The load command: more than 3584 bytes. -/
  | loadOverflow
  /-- A step: the word matches no row of R61. -/
  | unimplementedOpcode
  /-- A step: an access address of 4096 or more. -/
  | memoryBounds
  /-- A step (SKIP_KEY, SKIP_NOKEY) or the set_key command: a key index of 16 or more. -/
  | keyIndexBounds
  /-- A step (FONT_ADDR): a glyph index of 16 or more. -/
  | fontIndexBounds
  /-- A step (CALL): 16 entries are pushed. -/
  | stackOverflow
  /-- A step (RET): no entry is pushed. -/
  | stackUnderflow
  deriving DecidableEq, Repr

/-- The commands that can raise a fault (R135). -/
inductive FaultCommand where
  | load
  | step
  | setKey
  deriving DecidableEq, Repr

/-- A fault record (R135): the code, the command that raised it, for a step fault the address `pc0` fetched from, after a
successful fetch the word `op`, and the info of R133 (a length, a word, an address or an index). -/
structure FaultRecord where
  code : FaultCode
  command : FaultCommand
  pc0 : Option Word
  op : Option Word
  info : Option Nat
  deriving DecidableEq, Repr

/-- The status latch (R32). -/
inductive Status where
  | ready
  | halted (record : FaultRecord)
  deriving DecidableEq, Repr

/-- Memory as (address, byte) cells in one canonical form: addresses strictly rising and below 4096, no cell equal to what
an unlisted address reads as (`Memory.wf`, in Machine/Ops.lean; log 10). -/
abbrev Memory := List Host.Cell

/-- The state record of R16, under the spec's own field names, and the model's own counter `draws`. -/
structure State where
  /-- Program and data (R17). -/
  mem : Memory
  /-- Address of the next instruction to fetch (R21). -/
  pc : Word
  /-- The general registers; V[15] is VF (R18, R19). -/
  V : Vector Byte 16
  /-- The index register (R24). -/
  I : Word
  /-- The return addresses (R25). -/
  stack : Vector Word 16
  /-- How many entries are pushed, 0..16 (R26). -/
  sp : Fin 17
  /-- The framebuffer, cell (px, py) at px + 64 * py (R27). -/
  fb : Vector Bool 2048
  /-- The keypad, true = pressed (R29). -/
  keys : Vector Bool 16
  /-- The delay timer (R30). -/
  DT : Byte
  /-- The sound timer (R31). -/
  ST : Byte
  /-- READY, or HALTED with a fault record (R32). -/
  status : Status
  /-- The model's own: how many free values were taken so far (log 2). -/
  draws : Nat
  deriving DecidableEq, Repr

/-- The state after create or reset (R37): memory lists nothing, so bytes 0..79 read as FONT and all others as 0. `draws` = 0
is a DESIGN CHOICE (log 2). -/
def State.reset : State where
  mem := []
  pc := 0x200
  V := Vector.replicate 16 0
  I := 0
  stack := Vector.replicate 16 0
  sp := 0
  fb := Vector.replicate 2048 false
  keys := Vector.replicate 16 false
  DT := 0
  ST := 0
  status := .ready
  draws := 0

end Sys2Proof.Machine
end

