-- ==== Sys2Proof/Machine/Ops.lean ====
section
/-! DEFINITION. The named operations over the state: memory (spec/20_memory.md), registers, stack, framebuffer, keypad and
timers (spec/10_state.md), the instruction fetch (spec/40_host_commands.md R75), and taking a fault
(spec/60_exceptions.md R133 to R140). -/

namespace Sys2Proof.Machine

/-! ### Memory -/

/-- What an unlisted address reads as: the reset contents of R37, FONT in bytes 0..79 and 0 above. -/
def Memory.background (a : Nat) : Byte := if h : a < 80 then Config.font[a] else 0

/-- The byte an address holds. -/
def Memory.read : Memory → Nat → Byte
  | [], a => Memory.background a
  | (b, v) :: m, a => if a = b then v else Memory.read m a

/-- A cell in front of a memory, unless it says what an unlisted address reads as anyway. -/
def Memory.cons (a : Nat) (v : Byte) (m : Memory) : Memory := if v = Memory.background a then m else (a, v) :: m

/-- The memory without any cell for an address. -/
def Memory.erase (m : Memory) (a : Nat) : Memory := m.filter fun c => c.1 != a

/-- A cell put where its address belongs in a list with rising addresses. -/
def Memory.insert (a : Nat) (v : Byte) : Memory → Memory
  | [] => Memory.cons a v []
  | c :: m => if a < c.1 then Memory.cons a v (c :: m) else c :: Memory.insert a v m

/-- The memory with one byte changed, kept in canonical form. -/
def Memory.write (m : Memory) (a : Nat) (v : Byte) : Memory := Memory.insert a v (m.erase a)

/-- The canonical form: addresses strictly rising, all below 4096, no cell equal to what an unlisted address reads as. -/
abbrev Memory.wf (m : Memory) : Prop :=
  m.Pairwise (fun c d => c.1 < d.1) ∧ ∀ c ∈ m, c.1 < Config.memSize ∧ c.2 ≠ Memory.background c.1

/-- `MemRead(a, 1)`: the byte, or the address where it is out of range (R12, R43). -/
def memRead (m : Memory) (a : Nat) : Except Nat Byte :=
  if a < Config.memSize then .ok (m.read a) else .error a

/-- `MemWrite(a, 1, v)`: the changed memory, or the address where it is out of range (R12, R43). -/
def memWrite (m : Memory) (a : Nat) (v : Byte) : Except Nat Memory :=
  if a < Config.memSize then .ok (m.write a v) else .error a

/-- `n` bytes from `a` on, in ascending order (R39): the bytes read before the first address out of range, and that address
if there is one (R136). -/
def loadBytes (m : Memory) (a : Nat) : Nat → List Byte × Option Nat
  | 0 => ([], none)
  | n + 1 =>
    match memRead m a with
    | .ok v => (v :: (loadBytes m (a + 1) n).1, (loadBytes m (a + 1) n).2)
    | .error bad => ([], some bad)

/-- Bytes stored from `a` on, in ascending order (R39): the memory after the stores before the first address out of range,
and that address if there is one (R136). -/
def storeBytes (m : Memory) (a : Nat) : List Byte → Memory × Option Nat
  | [] => (m, none)
  | v :: vs =>
    match memWrite m a v with
    | .ok m' => storeBytes m' (a + 1) vs
    | .error bad => (m, some bad)

namespace State

/-! ### One update per field -/

/-- `pc <- target` (R13). -/
def setPc (s : State) (w : Word) : State := { s with pc := w }

/-- `V[r]` (R11). No register access can fault (R134). -/
def reg (s : State) (r : RegIdx) : Byte := s.V[r]

/-- `V[r] <- v` (R11, R18). -/
def setReg (s : State) (r : RegIdx) (v : Byte) : State := { s with V := s.V.set r v }

/-- `I <- w` (R24). -/
def setI (s : State) (w : Word) : State := { s with I := w }

/-- All of memory replaced. -/
def setMem (s : State) (m : Memory) : State := { s with mem := m }

/-- All of the framebuffer replaced (R27). -/
def setFb (s : State) (fb : Vector Bool 2048) : State := { s with fb := fb }

/-- Keypad slot k set to a level (R29). -/
def setKeySlot (s : State) (k : Fin 16) (pressed : Bool) : State := { s with keys := s.keys.set k pressed }

/-- `DT <- v` (R30). -/
def setDT (s : State) (v : Byte) : State := { s with DT := v }

/-- `ST <- v` (R31). -/
def setST (s : State) (v : Byte) : State := { s with ST := v }

/-- The status latch (R32). -/
def setStatus (s : State) (st : Status) : State := { s with status := st }

/-- The next free value is a fresh one (log 2). -/
def nextDraw (s : State) : State := { s with draws := s.draws + 1 }

/-- "advancing program_counter by an additional 2" (glossary of 00_scope.md); also the fetch's own advance (R21, R74). -/
def skip (s : State) : State := s.setPc (s.pc + 2)

/-! ### The return stack -/

/-- CALL's push (R26, R91): `stack[sp] <- w`, then `sp <- sp + 1`; none where all 16 entries are in use. -/
def push (s : State) (w : Word) : Option State :=
  if h : s.sp.val < 16 then some { s with stack := s.stack.set s.sp.val w, sp := ⟨s.sp.val + 1, by omega⟩ } else none

/-- RET's pop (R26, R89): `sp <- sp - 1`, and then the entry `stack[sp]`, which keeps its value; none where no entry is
pushed. -/
def pop (s : State) : Option (Word × State) :=
  if h : 0 < s.sp.val then
    some (s.stack[s.sp.val - 1]'(by omega), { s with sp := ⟨s.sp.val - 1, by omega⟩ })
  else none

/-! ### The fetch -/

/-- `fetch(pc0)` (R75): the word at the pc, high byte first, or the first of the two addresses that is out of range. -/
def fetch (s : State) : Except Nat Word :=
  match memRead s.mem s.pc.toNat with
  | .error bad => .error bad
  | .ok hi =>
    match memRead s.mem (s.pc.toNat + 1) with
    | .error bad => .error bad
    | .ok lo => .ok (wordOfBytes hi lo)

/-! ### Taking a fault

`raise F(info)` (R13, R137) latches HALTED with the record. After a step fault every other field "may hold the state before
the step or any part of the faulting instruction's effects" (R138): `blend` takes each location of the state, on its own,
from one of the candidates it is given, and `Config.residue` says from which (log 3). -/

/-- The candidate a selector picks for a location. -/
def pick (sel : Config.Location → Nat) (l : Config.Location) (before : State) (parts : List State) : State :=
  (before :: parts).getD (sel l % (before :: parts).length) before

/-- The addresses some candidate lists; at any other address they all agree. -/
def touched (before : State) (parts : List State) : List Nat :=
  (before :: parts).flatMap fun s => s.mem.map Prod.fst

/-- The memory that takes each byte from the candidate picked for it. -/
def blendMem (sel : Config.Location → Nat) (before : State) (parts : List State) : Memory :=
  (touched before parts).foldl (fun m a => m.write a ((pick sel (.byte a) before parts).mem.read a)) before.mem

/-- A state that takes each location, on its own, from the state before or from one of the partial states (R138); the status
and the model's counter stay those of the state before. -/
def blend (sel : Config.Location → Nat) (before : State) (parts : List State) : State where
  mem := blendMem sel before parts
  pc := (pick sel .pc before parts).pc
  V := Vector.ofFn fun r => (pick sel (.reg r) before parts).reg r
  I := (pick sel .I before parts).I
  stack := Vector.ofFn fun k => (pick sel (.entry k) before parts).stack[k]
  sp := (pick sel .sp before parts).sp
  fb := Vector.ofFn fun k => (pick sel (.cell k) before parts).fb[k]
  keys := Vector.ofFn fun k => (pick sel (.key k) before parts).keys[k]
  DT := (pick sel .DT before parts).DT
  ST := (pick sel .ST before parts).ST
  status := before.status
  draws := before.draws

/-- Taking a step fault: HALTED with the record (R137), the rest unspecified among the candidates (R138). -/
def raise (record : FaultRecord) (before : State) (parts : List State) : State :=
  ((blend (Config.residue before.draws) before parts).setStatus (.halted record)).nextDraw

/-- MEMORY_BOUNDS in the fetch (R75, R133, R135): there is no word `op` to record. -/
def raiseFetch (s : State) (bad : Nat) : State :=
  raise { code := .memoryBounds, command := .step, pc0 := some s.pc, op := none, info := some bad } s [s.skip]

/-- UNIMPLEMENTED_OPCODE at decode, after the fetch's advance of the pc (R74, R133, R135). -/
def raiseUnimplemented (s : State) (op : Word) : State :=
  raise { code := .unimplementedOpcode, command := .step, pc0 := some s.pc, op := some op, info := some op.toNat } s
    [s.skip]

/-- A fault of the execute phase of instruction `i`, raised in state `s`, whose pc is already two past the instruction (R13);
`parts` are the partial effects R138 lets stand. The word recorded is the instruction's (log 8). -/
def raiseExec (s : State) (i : Instr) (code : FaultCode) (info : Option Nat) (parts : List State) : State :=
  raise { code := code, command := .step, pc0 := some (s.pc - 2), op := some (encode i), info := info }
    (s.setPc (s.pc - 2)) (s :: parts)

/-- The end of an instruction that accesses memory: its effects, or MEMORY_BOUNDS at the first address out of range. -/
def finishAccess (s : State) (i : Instr) (bad : Option Nat) (done : State) (parts : List State) : State :=
  match bad with
  | none => done
  | some a => s.raiseExec i .memoryBounds (some a) parts

/-- A fault of the load or set_key command: nothing but the status changes (R138). -/
def raiseCommand (s : State) (code : FaultCode) (command : FaultCommand) (info : Nat) : State :=
  s.setStatus (.halted { code := code, command := command, pc0 := none, op := none, info := some info })

end State

/-- The codes of R133. -/
def FaultCode.number : FaultCode → Nat
  | .loadOverflow => 1
  | .unimplementedOpcode => 2
  | .memoryBounds => 3
  | .keyIndexBounds => 4
  | .fontIndexBounds => 5
  | .stackOverflow => 6
  | .stackUnderflow => 7

end Sys2Proof.Machine
end

