-- ==== Sys2Proof/Machine/Cycle.lean ====
section
/-! DEFINITION. The phases of the step command around the execute phase (spec/40_host_commands.md R74 to R76), and how a
word is laid out in memory for the fetch. -/

namespace Sys2Proof.Machine

/-- The step command's phases: nothing while HALTED (R83), then fetch, pc advance, decode, execute (R74, R76). `run` is the
execute phase. -/
def cycle (run : Instr → State → Host.Outcome State Fault Refusal) (s : State) : Host.Outcome State Fault Refusal :=
  match s.status with
  | .halted _ => .next s
  | .ready =>
    match s.fetch with
    | .error bad => .next (s.raiseFetch bad)
    | .ok op =>
      match decodeWord op with
      | .error _ => .next (s.raiseUnimplemented op)
      | .ok i => run i s.skip

namespace State

/-- A word stored at an address, high byte first (R40). -/
def placeWord (s : State) (a : Nat) (w : Word) : State :=
  s.setMem ((s.mem.write a (highByte w)).write (a + 1) (lowByte w))

/-- A state the next step fetches in: READY, and with the pc at an address a fetch can read, where it is not one already
(log 16). -/
def fetchable (s : State) : State :=
  (if s.pc.toNat ≤ 4094 then s else s.setPc (BitVec.ofNat 16 Config.loadBase)).setStatus .ready

end State

end Sys2Proof.Machine
end

