-- ==== Sys2Proof/Machine/Flags.lean ====
section
/-! DEFINITION. Results and flags of the arithmetic group (spec/44_alu.md R98 to R110), and the order in which result and
flag are written. Sums and differences are exact first; carry and borrow compare the exact value (R15). -/

namespace Sys2Proof.Machine

/-- A flag as VF holds it: 1 or 0. -/
def flagByte (b : Bool) : Byte := if b then 1 else 0

/-- The wrapped sum (R15, R105). -/
def addResult (a b : Byte) : Byte := BitVec.ofNat 8 (a.toNat + b.toNat)

/-- The carry of `a + b`: the exact sum is 256 or more (R15, R105). -/
def addCarry (a b : Byte) : Bool := 256 ≤ a.toNat + b.toNat

/-- The wrapped difference (R15, R106). -/
def subResult (a b : Byte) : Byte := BitVec.ofInt 8 ((a.toNat : Int) - (b.toNat : Int))

/-- The borrow of `a - b`: the exact difference is negative (R15, R106). -/
def subBorrow (a b : Byte) : Bool := (a.toNat : Int) - (b.toNat : Int) < 0

/-- `a div 2` (R107). -/
def shrResult (a : Byte) : Byte := BitVec.ofNat 8 (a.toNat / 2)

/-- The bit SHR shifts out, `a[0]` (R107). -/
def shrFlag (a : Byte) : Bool := a.getLsbD 0

/-- `(a * 2) mod 256` (R109). -/
def shlResult (a : Byte) : Byte := BitVec.ofNat 8 (a.toNat * 2)

/-- The bit SHL shifts out, `a[7]` (R109). -/
def shlFlag (a : Byte) : Bool := a.getLsbD 7

/-- `V[x]` first and `VF` last (R98; 90_conflicts.md C5; log 9). -/
def State.setRegThenFlag (s : State) (x : RegIdx) (result : Byte) (flag : Bool) : State :=
  (s.setReg x result).setReg VF (flagByte flag)

end Sys2Proof.Machine
end

