-- ==== Sys2Proof/Machine/Operands.lean ====
section
/-! DEFINITION. The operand forms of the instruction set (spec/30_encoding.md R58, R59): zero-extended immediates, the
memory operand at `I`, register lists, and a register value used as a keypad or font index. -/

namespace Sys2Proof.Machine

/-- `zext_16(nnn)` (R10, R58). -/
def zextNnn (nnn : Addr12) : Word := nnn.setWidth 16

/-- `zext_16(v)` of a register value (R10). -/
def zextByte (v : Byte) : Word := v.setWidth 16

/-- A register value used as a keypad or font index: the index where it is below 16, never masked or wrapped (R120, R128). -/
def index16 (v : Byte) : Option (Fin 16) := if h : v.toNat < 16 then some ⟨v.toNat, h⟩ else none

namespace State

/-- The address of the memory operand of DRAW, BCD, STORE_REGS and LOAD_REGS: `I`, as an exact natural number (R43). -/
def memOperand (s : State) : Nat := s.I.toNat

/-- `V[0]`, …, `V[x]`, the registers STORE_REGS copies (R130). -/
def regsUpTo (s : State) (x : RegIdx) : List Byte := s.V.toList.take (x.val + 1)

/-- Bytes written to the registers `V[k]`, `V[k+1]`, … in ascending order (R131). -/
def setRegsFrom (s : State) (k : Nat) : List Byte → State
  | [] => s
  | b :: bs => if h : k < 16 then (s.setReg ⟨k, h⟩ b).setRegsFrom (k + 1) bs else s

/-- The lowest pressed key: the slots are scanned in ascending index order (R122, R123). -/
def firstKey (s : State) : Option (Fin 16) := (List.finRange 16).find? fun k => s.keys[k]

/-- Skip the next instruction where a condition holds (42_skips.md). -/
def skipIf (s : State) (c : Bool) : State := if c then s.skip else s

end State

end Sys2Proof.Machine
end

