-- ==== Sys2Proof/Machine/Alu.lean ====
section
/-! DEFINITION. MOV, OR, AND, XOR, ADD, SUB, SHR, SUBN, SHL (spec/44_alu.md R98 to R109). Both operands are read before
anything is written (R98); the four of R99 write no flag. -/

namespace Sys2Proof.Machine

/-- MOV (R101). -/
def execMov (x y : RegIdx) (s : State) : Host.Outcome State Fault Refusal := .next (s.setReg x (s.reg y))

/-- OR (R102). -/
def execOr (x y : RegIdx) (s : State) : Host.Outcome State Fault Refusal := .next (s.setReg x (s.reg x ||| s.reg y))

/-- AND (R103). -/
def execAnd (x y : RegIdx) (s : State) : Host.Outcome State Fault Refusal := .next (s.setReg x (s.reg x &&& s.reg y))

/-- XOR (R104). -/
def execXor (x y : RegIdx) (s : State) : Host.Outcome State Fault Refusal := .next (s.setReg x (s.reg x ^^^ s.reg y))

/-- ADD (R105): VF = carry. -/
def execAdd (x y : RegIdx) (s : State) : Host.Outcome State Fault Refusal :=
  .next (s.setRegThenFlag x (addResult (s.reg x) (s.reg y)) (addCarry (s.reg x) (s.reg y)))

/-- SUB (R106): VF = NOT borrow of `V[x] - V[y]`. -/
def execSub (x y : RegIdx) (s : State) : Host.Outcome State Fault Refusal :=
  .next (s.setRegThenFlag x (subResult (s.reg x) (s.reg y)) (!subBorrow (s.reg x) (s.reg y)))

/-- SHR (R107): VF = the bit shifted out. -/
def execShr (x : RegIdx) (s : State) : Host.Outcome State Fault Refusal :=
  .next (s.setRegThenFlag x (shrResult (s.reg x)) (shrFlag (s.reg x)))

/-- SUBN (R108): VF = NOT borrow of `V[y] - V[x]`. -/
def execSubn (x y : RegIdx) (s : State) : Host.Outcome State Fault Refusal :=
  .next (s.setRegThenFlag x (subResult (s.reg y) (s.reg x)) (!subBorrow (s.reg y) (s.reg x)))

/-- SHL (R109): VF = the bit shifted out. -/
def execShl (x : RegIdx) (s : State) : Host.Outcome State Fault Refusal :=
  .next (s.setRegThenFlag x (shlResult (s.reg x)) (shlFlag (s.reg x)))

end Sys2Proof.Machine
end

