-- ==== Sys2Proof/Machine/Draw.lean ====
section
/-! DEFINITION. DRAW and the framebuffer engine (spec/46_draw.md R114 to R119). -/

namespace Sys2Proof.Machine

/-- The framebuffer and whether a lit cell was erased so far, as DRAW's loop carries them. -/
abbrev Canvas := Vector Bool 2048 × Bool

/-- The cell of sprite position (row, col): both coordinates wrap (R28, R115). -/
def spriteCell (X Y : Byte) (row col : Nat) : CellIdx :=
  ⟨(X.toNat + col) % 64 + 64 * ((Y.toNat + row) % 32), by omega⟩

/-- One 1-bit of the sprite: a lit cell is a collision, and the cell is inverted (R114, R118). -/
def toggleCell (k : CellIdx) (c : Canvas) : Canvas := (c.1.set k (!c.1[k]), c.2 || c.1[k])

/-- One sprite position: column col is bit 7 - col, "most-significant bit first"; a 0-bit does nothing (R114, R118). -/
def drawCol (X Y : Byte) (row : Nat) (byte : Byte) (c : Canvas) (col : Nat) : Canvas :=
  if byte.getLsbD (7 - col) then toggleCell (spriteCell X Y row col) c else c

/-- One sprite row: columns 0 to 7 in order (R114). -/
def drawRow (X Y : Byte) (row : Nat) (byte : Byte) (c : Canvas) : Canvas :=
  (List.range 8).foldl (drawCol X Y row byte) c

/-- The sprite rows from `row` on, in ascending order (R114). -/
def drawRows (X Y : Byte) (row : Nat) : List Byte → Canvas → Canvas
  | [], c => c
  | b :: bs, c => drawRows X Y (row + 1) bs (drawRow X Y row b c)

/-- DRAW (R114): coordinates read before VF is written (R119), VF = collision at the end, MEMORY_BOUNDS at the first row whose
byte is out of range; the rows before it, and VF, are what R138 lets stand then. -/
def execDraw (x y : RegIdx) (n : Nat) (s : State) : Host.Outcome State Fault Refusal :=
  let sprite := loadBytes s.mem s.memOperand n
  let canvas := drawRows (s.reg x) (s.reg y) 0 sprite.1 (s.fb, false)
  let done := (s.setFb canvas.1).setReg VF (flagByte canvas.2)
  .next (s.finishAccess (.draw x y n) sprite.2 done [done, s.setReg VF (flagByte false)])

end Sys2Proof.Machine
end

