-- ==== Sys2Proof/Machine/Flow.lean ====
section
/-! DEFINITION. NOP, CLS, RET, JMP, CALL (spec/41_flow_group0.md R87 to R91). Here and in every family the pc already holds
the instruction's address plus 2 (R13). -/

namespace Sys2Proof.Machine

/-- NOP (R87): no state change. -/
def execNop (s : State) : Host.Outcome State Fault Refusal := .next s

/-- CLS (R88): every cell unlit. -/
def execCls (s : State) : Host.Outcome State Fault Refusal := .next (s.setFb (Vector.replicate 2048 false))

/-- RET (R89): pop into the pc; STACK_UNDERFLOW where nothing is pushed. -/
def execRet (s : State) : Host.Outcome State Fault Refusal :=
  match s.pop with
  | some (w, s') => .next (s'.setPc w)
  | none => .next (s.raiseExec .ret .stackUnderflow none [])

/-- JMP (R90). -/
def execJmp (nnn : Addr12) (s : State) : Host.Outcome State Fault Refusal := .next (s.setPc (zextNnn nnn))

/-- CALL (R91): push the pc, which is the address after the CALL, and jump; STACK_OVERFLOW where 16 entries are pushed. -/
def execCall (nnn : Addr12) (s : State) : Host.Outcome State Fault Refusal :=
  match s.push s.pc with
  | some s' => .next (s'.setPc (zextNnn nnn))
  | none => .next (s.raiseExec (.call nnn) .stackOverflow none [s.setPc (zextNnn nnn)])

end Sys2Proof.Machine
end

