-- ==== Sys2Proof/Machine/IndexJumpRand.lean ====
section
/-! DEFINITION. LOAD_I, JMP_OFFSET, RAND (spec/45_index_jump_rand.md R111 to R113). -/

namespace Sys2Proof.Machine

/-- LOAD_I (R111). -/
def execLoadI (nnn : Addr12) (s : State) : Host.Outcome State Fault Refusal := .next (s.setI (zextNnn nnn))

/-- JMP_OFFSET (R112): always `V[0]`; the sum is at most 0x10FE, so it never wraps. -/
def execJmpOffset (nnn : Addr12) (s : State) : Host.Outcome State Fault Refusal :=
  .next (s.setPc (zextByte (s.reg 0) + zextNnn nnn))

/-- RAND's effect for a given input byte of the step (R77, R113). -/
def randWith (rnd : Byte) (x : RegIdx) (nn : Byte) (s : State) : State := (s.setReg x (rnd &&& nn)).nextDraw

/-- RAND (R113): the input byte is the free value of this draw (log 2). -/
def execRand (x : RegIdx) (nn : Byte) (s : State) : Host.Outcome State Fault Refusal :=
  .next (randWith (Config.rnd s.draws) x nn s)

end Sys2Proof.Machine
end

