-- ==== Sys2Proof/Machine/IndexMemory.lean ====
section
/-! DEFINITION. ADD_I, FONT_ADDR, BCD, STORE_REGS, LOAD_REGS (spec/49_index_memory.md R127 to R131). -/

namespace Sys2Proof.Machine

/-- ADD_I (R127): wraps at 16 bits, no flag. -/
def execAddI (x : RegIdx) (s : State) : Host.Outcome State Fault Refusal :=
  .next (s.setI (s.I + zextByte (s.reg x)))

/-- FONT_ADDR (R128): the address of a glyph; FONT_INDEX_BOUNDS where `V[x]` is no glyph (90_conflicts.md C1). -/
def execFontAddr (x : RegIdx) (s : State) : Host.Outcome State Fault Refusal :=
  match index16 (s.reg x) with
  | some g => .next (s.setI (BitVec.ofNat 16 (g.val * 5)))
  | none =>
    .next (s.raiseExec (.fontAddr x) .fontIndexBounds (some (s.reg x).toNat) [s.setI (zextByte (s.reg x) * 5)])

/-- The decimal digits of a byte, hundreds first (R129). -/
def bcdDigits (v : Byte) : List Byte :=
  [BitVec.ofNat 8 (v.toNat / 100), BitVec.ofNat 8 (v.toNat / 10 % 10), BitVec.ofNat 8 (v.toNat % 10)]

/-- BCD (R129): three digits at `I`; MEMORY_BOUNDS at the first address out of range. -/
def execBcd (x : RegIdx) (s : State) : Host.Outcome State Fault Refusal :=
  let stored := storeBytes s.mem s.memOperand (bcdDigits (s.reg x))
  .next (s.finishAccess (.bcd x) stored.2 (s.setMem stored.1) [s.setMem stored.1])

/-- STORE_REGS (R130): `V[0]`..`V[x]` to memory at `I`, which keeps its value (D15). -/
def execStoreRegs (x : RegIdx) (s : State) : Host.Outcome State Fault Refusal :=
  let stored := storeBytes s.mem s.memOperand (s.regsUpTo x)
  .next (s.finishAccess (.storeRegs x) stored.2 (s.setMem stored.1) [s.setMem stored.1])

/-- LOAD_REGS (R131): `V[0]`..`V[x]` from memory at `I`, which keeps its value (D15). -/
def execLoadRegs (x : RegIdx) (s : State) : Host.Outcome State Fault Refusal :=
  let loaded := loadBytes s.mem s.memOperand (x.val + 1)
  .next (s.finishAccess (.loadRegs x) loaded.2 (s.setRegsFrom 0 loaded.1) [s.setRegsFrom 0 loaded.1])

end Sys2Proof.Machine
end

