-- ==== Sys2Proof/Machine/Keypad.lean ====
section
/-! DEFINITION. SKIP_KEY, SKIP_NOKEY, WAIT_KEY (spec/47_keypad.md R120 to R123). They read the keypad and never write it. -/

namespace Sys2Proof.Machine

/-- SKIP_KEY (R120); KEY_INDEX_BOUNDS where `V[x]` is no key. -/
def execSkipKey (x : RegIdx) (s : State) : Host.Outcome State Fault Refusal :=
  match index16 (s.reg x) with
  | some k => .next (s.skipIf s.keys[k])
  | none => .next (s.raiseExec (.skipKey x) .keyIndexBounds (some (s.reg x).toNat) [s.skip])

/-- SKIP_NOKEY (R121); KEY_INDEX_BOUNDS where `V[x]` is no key. -/
def execSkipNokey (x : RegIdx) (s : State) : Host.Outcome State Fault Refusal :=
  match index16 (s.reg x) with
  | some k => .next (s.skipIf (!s.keys[k]))
  | none => .next (s.raiseExec (.skipNokey x) .keyIndexBounds (some (s.reg x).toNat) [s.skip])

/-- WAIT_KEY (R122, R123): the lowest pressed key, or the pc rewound to this instruction. -/
def execWaitKey (x : RegIdx) (s : State) : Host.Outcome State Fault Refusal :=
  match s.firstKey with
  | some k => .next (s.setReg x (BitVec.ofNat 8 k.val))
  | none => .next (s.setPc (s.pc - 2))

end Sys2Proof.Machine
end

