-- ==== Sys2Proof/Machine/RegImm.lean ====
section
/-! DEFINITION. LOAD_IMM, ADD_IMM (spec/43_register_immediate.md R96, R97). -/

namespace Sys2Proof.Machine

/-- LOAD_IMM (R96). -/
def execLoadImm (x : RegIdx) (nn : Byte) (s : State) : Host.Outcome State Fault Refusal := .next (s.setReg x nn)

/-- ADD_IMM (R97): the wrapped sum, and no flag. -/
def execAddImm (x : RegIdx) (nn : Byte) (s : State) : Host.Outcome State Fault Refusal :=
  .next (s.setReg x (addResult (s.reg x) nn))

end Sys2Proof.Machine
end

