-- ==== Sys2Proof/Machine/Skips.lean ====
section
/-! DEFINITION. SKIP_EQ_IMM, SKIP_NEQ_IMM, SKIP_EQ_REG, SKIP_NEQ_REG (spec/42_skips.md R92 to R95). -/

namespace Sys2Proof.Machine

/-- SKIP_EQ_IMM (R92). -/
def execSkipEqImm (x : RegIdx) (nn : Byte) (s : State) : Host.Outcome State Fault Refusal :=
  .next (s.skipIf (s.reg x == nn))

/-- SKIP_NEQ_IMM (R93). -/
def execSkipNeqImm (x : RegIdx) (nn : Byte) (s : State) : Host.Outcome State Fault Refusal :=
  .next (s.skipIf (s.reg x != nn))

/-- SKIP_EQ_REG (R94). -/
def execSkipEqReg (x y : RegIdx) (s : State) : Host.Outcome State Fault Refusal :=
  .next (s.skipIf (s.reg x == s.reg y))

/-- SKIP_NEQ_REG (R95). -/
def execSkipNeqReg (x y : RegIdx) (s : State) : Host.Outcome State Fault Refusal :=
  .next (s.skipIf (s.reg x != s.reg y))

end Sys2Proof.Machine
end

