-- ==== Sys2Proof/Machine/Timers.lean ====
section
/-! DEFINITION. LOAD_DT, SET_DT, SET_ST (spec/48_timers.md R124 to R126), and the countdown of one timer (R30, R80), which
the tick command uses. -/

namespace Sys2Proof.Machine

/-- LOAD_DT (R124). -/
def execLoadDt (x : RegIdx) (s : State) : Host.Outcome State Fault Refusal := .next (s.setReg x s.DT)

/-- SET_DT (R125). -/
def execSetDt (x : RegIdx) (s : State) : Host.Outcome State Fault Refusal := .next (s.setDT (s.reg x))

/-- SET_ST (R126). -/
def execSetSt (x : RegIdx) (s : State) : Host.Outcome State Fault Refusal := .next (s.setST (s.reg x))

/-- One tick of one timer: down by one, floored at zero (R80). -/
def countDown (t : Byte) : Byte := if 0 < t.toNat then t - 1 else t

end Sys2Proof.Machine
end

