-- ==== Sys2Proof/Machine/Step.lean ====
section
/-! DEFINITION. One step of the machine: the step command of R74, its input byte a free value (R77; log 2). -/

namespace Sys2Proof.Machine

/-- One step: fetch, decode and execute one instruction, or nothing while HALTED. -/
def step (s : State) : Host.Outcome State Fault Refusal := cycle exec s

/-- The state with an instruction word placed where the next step fetches (log 6, log 16). -/
def State.withFetchWord (s : State) (nbits w : Nat) : State :=
  s.fetchable.placeWord s.fetchable.pc.toNat (BitVec.ofNat 16 (w % 2 ^ nbits))

end Sys2Proof.Machine
end

