-- ==== Sys2Proof/Machine/Commands.lean ====
section
/-! DEFINITION. The host commands (spec/40_host_commands.md R68 to R86): create, reset, load, step with its input byte, tick,
display and set_key, each one atomic transition with a result. -/

namespace Sys2Proof.Machine

/-- A host command and its inputs (R69). The index and the length are unbounded (D21). -/
inductive Command where
  | create
  | reset
  | load (bytes : List Byte)
  | step (rnd : Byte)
  | tick
  | display
  | setKey (index : Nat) (pressed : Bool)
  deriving DecidableEq, Repr

/-- The result of a command (R69): `OK`, `FAULT(record)`, or the grid of display (R81). -/
inductive Reply where
  | ok
  | fault (record : FaultRecord)
  | grid (cells : Vector Bool 2048)
  deriving DecidableEq, Repr

/-- The result of a load, step, tick or set_key: the latch says it (R79, R83, R137; log 13). -/
def Status.reply : Status → Reply
  | .ready => .ok
  | .halted record => .fault record

/-- Cell (px, py) of the grid display returns (R81). -/
def gridCell (grid : Vector Bool 2048) (px : Fin 64) (py : Fin 32) : Bool := grid[px.val + 64 * py.val]'(by omega)

/-- The execute phase for a given input byte: only RAND reads it (R77). -/
def execWith (rnd : Byte) (i : Instr) (s : State) : Host.Outcome State Fault Refusal :=
  match i with
  | .rand x nn => .next (randWith rnd x nn s)
  | i => exec i s

/-- The step command with its input byte (R69, R74, R77). -/
def stepWith (rnd : Byte) (s : State) : Host.Outcome State Fault Refusal := cycle (execWith rnd) s

namespace State

/-- Every field at its reset value, from any state (R71, R72); the model's own counter goes on (log 2). -/
def resetAll (s : State) : State := { State.reset with draws := s.draws }

/-- A command that does nothing while HALTED (R83). -/
def whenReady (s : State) (act : State → State) : State :=
  match s.status with
  | .ready => act s
  | .halted _ => s

/-- Bytes written to `a`, `a + 1`, …, all of them inside memory. -/
def writeBytes (m : Memory) (a : Nat) : List Byte → Memory
  | [] => m
  | b :: bs => writeBytes (m.write a b) (a + 1) bs

/-- load (R73): the image to memory from 0x200, or LOAD_OVERFLOW with nothing written. -/
def loadProgram (bytes : List Byte) (s : State) : State :=
  if Config.loadMax < bytes.length then s.raiseCommand .loadOverflow .load bytes.length
  else s.setMem (writeBytes s.mem Config.loadBase bytes)

/-- tick (R80): each timer down by one, floored at zero. -/
def tickTimers (s : State) : State := (s.setDT (countDown s.DT)).setST (countDown s.ST)

/-- set_key (R82), or KEY_INDEX_BOUNDS with the keypad unchanged. -/
def setKey (index : Nat) (pressed : Bool) (s : State) : State :=
  if h : index < 16 then s.setKeySlot ⟨index, h⟩ pressed else s.raiseCommand .keyIndexBounds .setKey index

end State

/-- A state with the result its latch says. -/
def answer (s : State) : Host.Outcome (State × Reply) Fault Refusal := .next (s, s.status.reply)

/-- One host command (R68, R69): the state after it and its result. -/
def Command.perform (c : Command) (s : State) : Host.Outcome (State × Reply) Fault Refusal :=
  match c with
  | .create => answer s.resetAll
  | .reset => answer s.resetAll
  | .load bytes => answer (s.whenReady (State.loadProgram bytes))
  | .step rnd =>
    match stepWith rnd s with
    | .next t => answer t
    | .fault r => .fault r
    | .refused r => .refused r
  | .tick => answer (s.whenReady State.tickTimers)
  | .display => .next (s, .grid s.fb)
  | .setKey index pressed => answer (s.whenReady (State.setKey index pressed))

/-- A run: the host's commands one after the other (R70, R84). -/
def Command.performAll : List Command → State → Host.Outcome State Fault Refusal
  | [], s => .next s
  | c :: cs, s =>
    match c.perform s with
    | .next (t, _) => performAll cs t
    | .fault r => .fault r
    | .refused r => .refused r

end Sys2Proof.Machine
end

