-- ==== Sys2Proof/Safety.lean ====
section
/-! DEFINITION. The terms claims are stated in: what a state keeps (frames), what a faulting step latches, the invariant of
every run, reachable states, what a safe run is, and the spec's own tables about the whole instruction set (R20, R22). -/

namespace Sys2Proof.Machine

/-- The fields of the state, for frames. -/
inductive Field where
  | mem | pc | V | I | stack | sp | fb | keys | DT | ST | status | draws
  deriving DecidableEq, Repr

namespace State

/-- Every field but those listed has the same value in `t` as in `s`. Memory is compared by what each address reads as, the
registers by what each register reads as. -/
structure SameBut (fields : List Field) (s t : State) : Prop where
  mem : Field.mem ∉ fields → ∀ a, t.mem.read a = s.mem.read a
  pc : Field.pc ∉ fields → t.pc = s.pc
  V : Field.V ∉ fields → ∀ r, t.reg r = s.reg r
  I : Field.I ∉ fields → t.I = s.I
  stack : Field.stack ∉ fields → t.stack = s.stack
  sp : Field.sp ∉ fields → t.sp = s.sp
  fb : Field.fb ∉ fields → t.fb = s.fb
  keys : Field.keys ∉ fields → t.keys = s.keys
  DT : Field.DT ∉ fields → t.DT = s.DT
  ST : Field.ST ∉ fields → t.ST = s.ST
  status : Field.status ∉ fields → t.status = s.status
  draws : Field.draws ∉ fields → t.draws = s.draws

/-- Every register but those listed reads the same in `t` as in `s`. -/
def SameRegsBut (regs : List RegIdx) (s t : State) : Prop := ∀ r, r ∉ regs → t.reg r = s.reg r

/-- Every address outside the `n` bytes from `a` on reads the same in `t` as in `s`. -/
def SameBytesOutside (a n : Nat) (s t : State) : Prop := ∀ b, (b < a ∨ a + n ≤ b) → t.mem.read b = s.mem.read b

/-- HALTED by a step, with the record of R135: the code, `pc0`, the word `op` where one was fetched, and the info. -/
def HaltedWith (t : State) (code : FaultCode) (pc0 : Word) (op : Option Word) (info : Option Nat) : Prop :=
  t.status = .halted { code := code, command := .step, pc0 := some pc0, op := op, info := info }

/-- The reset values of R37, field by field. -/
structure AtReset (t : State) : Prop where
  font : ∀ a, (h : a < 80) → t.mem.read a = Config.font[a]
  zeros : ∀ a, 80 ≤ a → a < 4096 → t.mem.read a = 0
  pc : t.pc = 0x200
  V : ∀ r, t.reg r = 0
  I : t.I = 0
  stack : ∀ k : Fin 16, t.stack[k] = 0
  sp : t.sp.val = 0
  fb : ∀ k : CellIdx, t.fb[k] = false
  keys : ∀ k : Fin 16, t.keys[k] = false
  DT : t.DT = 0
  ST : t.ST = 0
  status : t.status = .ready

/-- The word the two bytes at an address make, high byte first (R40). -/
def wordAt (s : State) (a : Nat) : Word := wordOfBytes (s.mem.read a) (s.mem.read (a + 1))

/-- The machine is READY and the word at the pc, which a fetch can read, decodes to `i` (R74, R75). -/
structure NextInstr (s : State) (i : Instr) : Prop where
  ready : s.status = .ready
  inRange : s.pc.toNat ≤ 4094
  decodes : decodeWord (s.wordAt s.pc.toNat) = .ok i

/-- Cell (px, py) of the framebuffer (R27). -/
def cellAt (s : State) (px : Fin 64) (py : Fin 32) : Bool := gridCell s.fb px py

/-- DRAW's sprite has a 1-bit that lands on cell (px, py): bit 7 - col of the byte at `I + row`, at column
`(V[x] + col) mod 64` and row `(V[y] + row) mod 32` (R114, R115). -/
def SpriteOn (s : State) (x y : RegIdx) (n : Nat) (px : Fin 64) (py : Fin 32) : Prop :=
  ∃ row col, row < n ∧ col < 8 ∧ (s.mem.read (s.I.toNat + row)).getLsbD (7 - col) = true ∧
    px.val = ((s.reg x).toNat + col) % 64 ∧ py.val = ((s.reg y).toNat + row) % 32

/-- The pc after one successful step that executes `i`, as the table of R22 gives it: `s` is the state before the step, so
its pc is `pc0`. For the skips the condition is the instruction's (R92 to R95, R120, R121). -/
def netPc (i : Instr) (s : State) : Word :=
  match i with
  | .skipEqImm x nn => if s.reg x = nn then s.pc + 4 else s.pc + 2
  | .skipNeqImm x nn => if s.reg x ≠ nn then s.pc + 4 else s.pc + 2
  | .skipEqReg x y => if s.reg x = s.reg y then s.pc + 4 else s.pc + 2
  | .skipNeqReg x y => if s.reg x ≠ s.reg y then s.pc + 4 else s.pc + 2
  | .skipKey x => if ∃ k : Fin 16, k.val = (s.reg x).toNat ∧ s.keys[k] = true then s.pc + 4 else s.pc + 2
  | .skipNokey x => if ∃ k : Fin 16, k.val = (s.reg x).toNat ∧ s.keys[k] = false then s.pc + 4 else s.pc + 2
  | .jmp nnn | .call nnn => nnn.setWidth 16
  | .jmpOffset nnn => BitVec.ofNat 16 ((s.reg 0).toNat + nnn.toNat)
  | .ret => (s.stack[s.sp.val - 1]?).getD 0
  | .waitKey _ => if ∃ k : Fin 16, s.keys[k] = true then s.pc + 2 else s.pc
  | _ => s.pc + 2

end State

/-- The registers an instruction may write, as the table of R20 lists them. -/
def writesReg (i : Instr) (r : RegIdx) : Bool :=
  match i with
  | .loadImm x _ | .addImm x _ | .mov x _ | .or x _ | .and x _ | .xor x _ | .rand x _ | .loadDt x => r == x
  | .add x _ | .sub x _ | .shr x | .subn x _ | .shl x => r == x || r == VF
  | .draw _ _ _ => r == VF
  | .waitKey x => r == x
  | .loadRegs x => r ≤ x
  | _ => false

/-- Every word with these fixed bits decodes to the instruction `f` reads from its fields (R56, R60, R61). -/
def Encodes (fixed mask : Word) (f : Word → Instr) : Prop := ∀ w, w &&& mask = fixed → decodeWord w = .ok (f w)

/-- A record says what R133 and R135 say of its code: which command raises it, which info it carries, and that a step fault
names its instruction. -/
def FaultRecord.wf (r : FaultRecord) : Bool :=
  match r.code, r.command, r.pc0, r.op, r.info with
  | .loadOverflow, .load, none, none, some len => 3584 < len
  | .unimplementedOpcode, .step, some _, some op, some info => info == op.toNat
  | .memoryBounds, .step, some _, _, some a => 4096 ≤ a
  | .keyIndexBounds, .step, some _, some _, some k => 16 ≤ k
  | .keyIndexBounds, .setKey, none, none, some k => 16 ≤ k
  | .fontIndexBounds, .step, some _, some _, some g => 16 ≤ g
  | .stackOverflow, .step, some _, some _, none => true
  | .stackUnderflow, .step, some _, some _, none => true
  | _, _, _, _, _ => false

/-- The invariant of every run: memory in canonical form (so every listed byte is in 0..4095); while READY, the pc is at most
0x10FE and every pushed return address at most 0x1000 (R23); a latched record says what R133 and R135 say of it. The pc and
the stack are unspecified after a step fault (R138), so nothing is said of them while HALTED. -/
structure State.Inv (s : State) : Prop where
  mem : s.mem.wf
  pc : s.status = .ready → s.pc.toNat ≤ 0x10FE
  stack : s.status = .ready → ∀ k : Fin 16, k.val < s.sp.val → s.stack[k].toNat ≤ 0x1000
  record : ∀ r, s.status = .halted r → r.wf = true

/-- The states that some list of host commands reaches from the reset state (R84: every interleaving is a run). -/
def Reachable (s : State) : Prop := ∃ cs, Command.performAll cs State.reset = .next s

/-- A safe run: after each of the first `k` steps the machine is READY, so no fault was raised (R132, R137). -/
def SafeFor (s : State) : Nat → Prop
  | 0 => s.status = .ready
  | k + 1 => s.status = .ready ∧ ∃ t, step s = .next t ∧ SafeFor t k

end Sys2Proof.Machine
end

