-- ==== Sys2Proof/Certificates/Slice0/Obligations.lean ====
section
/-! DEFINITION. The statements for the provers. `exec i s` is the execute phase: the pc of `s` is already two past the
instruction (R13), so "the pc is unchanged" there means `pc0 + 2` (R22), and a record's `pc0` is `s.pc - 2`
and its `op` is `encode i` (the model's own form, log 8). A fault is a next state that is HALTED (R137; log 4).
`SameBut fields s t` says that every other field is unchanged, memory byte by byte. -/

open Sys2Proof Sys2Proof.Machine Sys2Proof.Machine.State

/-! ### Reset -/

/-- R37, R71, R72: the reset state, and the state create and reset leave from any state, hold the values of R37, and both
commands answer OK. -/
def Obligations.CreateAndResetLeaveResetValues : Prop :=
  State.reset.AtReset ∧
  ∀ s : State, ∀ c : Command, c = .create ∨ c = .reset → ∃ t, c.perform s = .next (t, .ok) ∧ t.AtReset

/-- R150: two resets give the state one gives, and the state after reset does not depend on the state before, but for the
model's own counter `draws`, which is the model's choice (log 2). -/
def Obligations.ResetIsIdempotentAndHistoryFree : Prop :=
  ∀ s u : State, ∃ s' u', Command.perform .reset s = .next (s', .ok) ∧ Command.perform .reset s' = .next (s', .ok) ∧
    Command.perform .reset u = .next (u', .ok) ∧ s'.mem = u'.mem ∧ SameBut [.draws] s' u'

/-! ### Encoding -/

/-- Decoding the word, or the two stored bytes, of a well-formed instruction gives the instruction back, whatever follows. -/
def Obligations.DecodeOfEncodeIsInstruction : Prop :=
  ∀ i : Instr, i.wellFormed = true → decodeWord (encode i) = .ok i ∧
    ∀ rest, decodeBytes (highByte (encode i) :: lowByte (encode i) :: rest) = .ok (i, rest)

/-- R60, R61: what a word decodes to is an instruction of a row it selects, a word decodes exactly where it selects a row, and
no word selects two rows. -/
def Obligations.DecodeSelectsExactlyOneTableRow : Prop :=
  ∀ w : Word,
    (∀ i, decodeWord w = .ok i → selects w (tableRow i) = true) ∧
    ((∃ row ∈ opcodeTable, selects w row = true) ↔ ∃ i, decodeWord w = .ok i) ∧
    (∀ row ∈ opcodeTable, ∀ row' ∈ opcodeTable, selects w row = true → selects w row' = true → row = row')

/-- R62, R67: a decoded instruction is well formed and its word is the one decoded, but that SHR and SHL forget bits 7:4. -/
def Obligations.EncodeOfDecodeIsWord : Prop :=
  ∀ (w : Word) (i : Instr), decodeWord w = .ok i → i.wellFormed = true ∧
    ((∀ x, i ≠ .shr x ∧ i ≠ .shl x) → encode i = w) ∧
    ((∃ x, i = .shr x ∨ i = .shl x) → encode i = w &&& 0xFF0F)

/-- R63: the words without an instruction, subspace by subspace, written with the nibbles of the word. -/
def Obligations.IllegalWordsAreExactly : Prop :=
  ∀ w : Word, decodeWord w = .error (.unimplemented w) ↔
    (w.toNat / 0x1000 = 0x0 ∧ w.toNat ∉ [0x0000, 0x00E0, 0x00EE]) ∨
    (w.toNat / 0x1000 = 0x5 ∧ w.toNat % 0x10 ≠ 0) ∨
    (w.toNat / 0x1000 = 0x8 ∧ w.toNat % 0x10 ∈ [0x8, 0x9, 0xA, 0xB, 0xC, 0xD, 0xF]) ∨
    (w.toNat / 0x1000 = 0x9 ∧ w.toNat % 0x10 ≠ 0) ∨
    (w.toNat / 0x1000 = 0xE ∧ w.toNat % 0x100 ∉ [0x9E, 0xA1]) ∨
    (w.toNat / 0x1000 = 0xF ∧ w.toNat % 0x100 ∉ [0x07, 0x0A, 0x15, 0x18, 0x1E, 0x29, 0x33, 0x55, 0x65])

/-- Words written out from the opcode map of R61, one a family, decode to their instructions. -/
def Obligations.SpecWordsDecode : Prop :=
  decodeWord 0x00EE = .ok .ret ∧ decodeWord 0x2300 = .ok (.call 0x300) ∧ decodeWord 0x3A42 = .ok (.skipEqImm 0xA 0x42) ∧
  decodeWord 0x6A02 = .ok (.loadImm 0xA 0x02) ∧ decodeWord 0x8125 = .ok (.sub 1 2) ∧
  decodeWord 0x81A6 = .ok (.shr 1) ∧ decodeWord 0xB300 = .ok (.jmpOffset 0x300) ∧
  decodeWord 0xD345 = .ok (.draw 3 4 5) ∧ decodeWord 0xE29E = .ok (.skipKey 2) ∧ decodeWord 0xF507 = .ok (.loadDt 5) ∧
  decodeWord 0xF265 = .ok (.loadRegs 2) ∧ decodeWord 0x5121 = .error (.unimplemented 0x5121)

/-! ### The step -/

/-- R74: where the machine is READY and the two bytes at the pc decode to `i`, a step is `exec i` with the pc moved past the
word. -/
def Obligations.StepRunsDecodedInstruction : Prop :=
  ∀ (s : State) (i : Instr), s.status = .ready → s.pc.toNat ≤ 4094 →
    decodeBytes [s.mem.read s.pc.toNat, s.mem.read (s.pc.toNat + 1)] = .ok (i, []) →
    step s = exec i (s.setPc (s.pc + 2))

/-- R75: the fetch gives the word `hi * 256 + lo` exactly where the pc is at most 4094, odd or even; above, it gives the first
address out of range, `pc0` or `pc0 + 1`, and a READY step raises MEMORY_BOUNDS with that address. -/
def Obligations.FetchReadsBigEndianWordInRange : Prop :=
  ∀ s : State,
    (s.pc.toNat ≤ 4094 → ∃ w, s.fetch = .ok w ∧
      w.toNat = (s.mem.read s.pc.toNat).toNat * 256 + (s.mem.read (s.pc.toNat + 1)).toNat) ∧
    (s.pc.toNat = 4095 → s.fetch = .error 4096) ∧
    (4096 ≤ s.pc.toNat → s.fetch = .error s.pc.toNat) ∧
    (s.status = .ready → 4095 ≤ s.pc.toNat →
      ∃ t, step s = .next t ∧ t.HaltedWith .memoryBounds s.pc none (some (max s.pc.toNat 4096)))

/-- R63, R74, R133: a fetched word that decodes to nothing halts the machine with the word on record. -/
def Obligations.StepOnIllegalWordHalts : Prop :=
  ∀ s : State, s.status = .ready → s.pc.toNat ≤ 4094 →
    (∀ i, decodeWord (s.wordAt s.pc.toNat) ≠ .ok i) →
    ∃ t, step s = .next t ∧
      t.HaltedWith .unimplementedOpcode s.pc (some (s.wordAt s.pc.toNat)) (some (s.wordAt s.pc.toNat).toNat)

/-- R83: while HALTED, step, tick, load and set_key change nothing and return the latched record, display answers as in READY,
create and reset leave HALTED. -/
def Obligations.HaltedMachineIgnoresCommands : Prop :=
  ∀ (s : State) (r : FaultRecord), s.status = .halted r →
    step s = .next s ∧
    (∀ rnd, Command.perform (.step rnd) s = .next (s, .fault r)) ∧
    Command.perform .tick s = .next (s, .fault r) ∧
    (∀ bytes, Command.perform (.load bytes) s = .next (s, .fault r)) ∧
    (∀ k b, Command.perform (.setKey k b) s = .next (s, .fault r)) ∧
    Command.perform .display s = .next (s, .grid s.fb) ∧
    (∃ t, Command.perform .create s = .next (t, .ok) ∧ t.status = .ready) ∧
    (∃ t, Command.perform .reset s = .next (t, .ok) ∧ t.status = .ready)

/-- R78, R79, R137: every step of every state ends in a next state (a fault too: the model's form, log 4), and its result,
read from the latch (log 13), is OK exactly where it is READY. -/
def Obligations.EveryStepAnswersNextState : Prop :=
  (∀ (i : Instr) (s : State), ∃ t, exec i s = .next t) ∧
  (∀ s : State, ∃ t, step s = .next t) ∧
  (∀ (s : State) (rnd : Byte), ∃ t, Command.perform (.step rnd) s = .next (t, t.status.reply) ∧
    (t.status.reply = .ok ↔ t.status = .ready))

/-- R77: only RAND reads the step's input byte; a plain step is a step with the free byte of its draw (the model's form,
log 2). -/
def Obligations.OnlyRandReadsInputByte : Prop :=
  (∀ s : State, step s = stepWith (Config.rnd s.draws) s) ∧
  (∀ (s : State) (b b' : Byte), (∀ x nn, ¬ s.NextInstr (.rand x nn)) → stepWith b s = stepWith b' s) ∧
  (∀ (s : State) (b : Byte) (x : RegIdx) (nn : Byte), s.NextInstr (.rand x nn) →
    ∃ t, stepWith b s = .next t ∧ t.reg x = b &&& nn ∧ t.pc = s.pc + 2 ∧ SameRegsBut [x] s t ∧
      SameBut [.pc, .V, .draws] s t)

/-- R133, R135, R136: a READY step that halts leaves a record that names its `pc0` and, after a fetch, its word, and whose code
and info are those of the first condition met, row by row of the table of R133. -/
def Obligations.StepFaultRecordStatesItsCause : Prop :=
  ∀ (s t : State) (r : FaultRecord), s.status = .ready → step s = .next t → t.status = .halted r →
    r.command = .step ∧ r.pc0 = some s.pc ∧
    (4095 ≤ s.pc.toNat → r.op = none ∧ r.code = .memoryBounds ∧ r.info = some (max s.pc.toNat 4096)) ∧
    (s.pc.toNat ≤ 4094 → r.op = some (s.wordAt s.pc.toNat) ∧
      match decodeWord (s.wordAt s.pc.toNat) with
      | .error _ => r.code = .unimplementedOpcode ∧ r.info = some (s.wordAt s.pc.toNat).toNat
      | .ok (.draw _ _ n) => r.code = .memoryBounds ∧ n ≠ 0 ∧ 4096 < s.I.toNat + n ∧ r.info = some (max s.I.toNat 4096)
      | .ok (.bcd _) => r.code = .memoryBounds ∧ 4096 ≤ s.I.toNat + 2 ∧ r.info = some (max s.I.toNat 4096)
      | .ok (.storeRegs x) => r.code = .memoryBounds ∧ 4096 ≤ s.I.toNat + x.val ∧ r.info = some (max s.I.toNat 4096)
      | .ok (.loadRegs x) => r.code = .memoryBounds ∧ 4096 ≤ s.I.toNat + x.val ∧ r.info = some (max s.I.toNat 4096)
      | .ok (.skipKey x) => r.code = .keyIndexBounds ∧ 16 ≤ (s.reg x).toNat ∧ r.info = some (s.reg x).toNat
      | .ok (.skipNokey x) => r.code = .keyIndexBounds ∧ 16 ≤ (s.reg x).toNat ∧ r.info = some (s.reg x).toNat
      | .ok (.fontAddr x) => r.code = .fontIndexBounds ∧ 16 ≤ (s.reg x).toNat ∧ r.info = some (s.reg x).toNat
      | .ok (.call _) => r.code = .stackOverflow ∧ s.sp.val = 16 ∧ r.info = none
      | .ok .ret => r.code = .stackUnderflow ∧ s.sp.val = 0 ∧ r.info = none
      | .ok _ => False)

/-- R22: the net effect on the pc of every step that raises no fault. -/
def Obligations.SuccessfulStepMovesPcAsTabled : Prop :=
  ∀ (s t : State) (i : Instr), s.NextInstr i → step s = .next t → t.status = .ready → t.pc = s.netPc i

/-- R20, and R24, R25, R27, R29, R30, R31, R39: no instruction that raises no fault writes a register not listed for it, nor
any other field but those its rule names. -/
def Obligations.InstructionsWriteOnlyListedFields : Prop :=
  ∀ (s t : State) (i : Instr), exec i s = .next t → t.status = .ready →
    (∀ r, writesReg i r = false → t.reg r = s.reg r) ∧
    ((∀ nnn x, i ≠ .loadI nnn ∧ i ≠ .addI x ∧ i ≠ .fontAddr x) → t.I = s.I) ∧
    ((∀ nnn, i ≠ .call nnn) → t.stack = s.stack) ∧
    ((∀ nnn, i ≠ .call nnn ∧ i ≠ .ret) → t.sp = s.sp) ∧
    ((∀ x y n, i ≠ .cls ∧ i ≠ .draw x y n) → t.fb = s.fb) ∧
    t.keys = s.keys ∧
    ((∀ x, i ≠ .setDt x) → t.DT = s.DT) ∧
    ((∀ x, i ≠ .setSt x) → t.ST = s.ST) ∧
    ((∀ x, i ≠ .bcd x ∧ i ≠ .storeRegs x) → ∀ a, t.mem.read a = s.mem.read a)

/-! ### The invariant -/

/-- Every step keeps the invariant `State.Inv`: canonical memory (the model's own form, log 10), R23's
bounds on the pc and the return addresses, and R133's form of a latched record. -/
def Obligations.StepKeepsInvariant : Prop := ∀ s t : State, s.Inv → step s = .next t → t.Inv

/-- The reset state has the invariant. -/
def Obligations.ResetHasInvariant : Prop := State.reset.Inv

/-- Every host command keeps the invariant `State.Inv`, whose canonical form of memory is the model's own (log 10), and no
command fails to answer. -/
def Obligations.CommandsKeepInvariant : Prop :=
  ∀ (c : Command) (s : State), s.Inv → ∃ t reply, c.perform s = .next (t, reply) ∧ t.Inv

/-- R23: on every run of host commands, whatever their order, a READY machine's pc is at most 0x10FE, and its successor never
wraps. -/
def Obligations.ReachablePcNeverWraps : Prop :=
  ∀ s : State, Reachable s → s.status = .ready → s.pc.toNat ≤ 0x10FE ∧ (s.pc + 2).toNat = s.pc.toNat + 2

/-! ### Flow, group 0 and jumps -/

/-- R87, R88: NOP changes nothing; CLS unlights every cell, so display then gives the all-unlit grid, and changes nothing
else. -/
def Obligations.NopChangesNothingClsClearsScreen : Prop :=
  Encodes 0x0000 0xFFFF (fun _ => .nop) ∧ Encodes 0x00E0 0xFFFF (fun _ => .cls) ∧
  ∀ s : State, exec .nop s = .next s ∧
    ∃ t, exec .cls s = .next t ∧ (∀ px py, t.cellAt px py = false) ∧ SameBut [.fb] s t ∧
      ∃ g, Command.perform .display t = .next (t, .grid g) ∧ ∀ px py, gridCell g px py = false

/-- R90, R111, R112: JMP, LOAD_I and JMP_OFFSET complete in every state; the targets are exact naturals. -/
def Obligations.JumpsAndIndexLoadWriteExactAddress : Prop :=
  Encodes 0x1000 0xF000 (fun w => .jmp (w.extractLsb' 0 12)) ∧
  Encodes 0xA000 0xF000 (fun w => .loadI (w.extractLsb' 0 12)) ∧
  Encodes 0xB000 0xF000 (fun w => .jmpOffset (w.extractLsb' 0 12)) ∧
  ∀ (s : State) (nnn : Addr12),
    (∃ t, exec (.jmp nnn) s = .next t ∧ t.pc.toNat = nnn.toNat ∧ SameBut [.pc] s t) ∧
    (∃ t, exec (.loadI nnn) s = .next t ∧ t.I.toNat = nnn.toNat ∧ SameBut [.I] s t) ∧
    (∃ t, exec (.jmpOffset nnn) s = .next t ∧ t.pc.toNat = (s.reg 0).toNat + nnn.toNat ∧ SameBut [.pc] s t)

/-- R91, R26: CALL with a free entry pushes the pc, which is the address after it, and jumps; with 16 entries pushed it raises
STACK_OVERFLOW.
The record's pc0 and op are the model's form (log 8). -/
def Obligations.CallPushesOrOverflows : Prop :=
  ∀ (s : State) (nnn : Addr12),
    (∀ h : s.sp.val < 16, ∃ t, exec (.call nnn) s = .next t ∧ t.stack[s.sp.val] = s.pc ∧
      (∀ k : Fin 16, k.val ≠ s.sp.val → t.stack[k] = s.stack[k]) ∧ t.sp.val = s.sp.val + 1 ∧
      t.pc.toNat = nnn.toNat ∧ SameBut [.stack, .sp, .pc] s t) ∧
    (s.sp.val = 16 → ∃ t, exec (.call nnn) s = .next t ∧
      t.HaltedWith .stackOverflow (s.pc - 2) (some (encode (.call nnn))) none)

/-- R89, R26: RET with an entry pushed pops it into the pc and keeps it in the stack; with none it raises STACK_UNDERFLOW.
The record's pc0 and op are the model's form (log 8). -/
def Obligations.RetPopsOrUnderflows : Prop :=
  ∀ s : State,
    (∀ h : 0 < s.sp.val, ∃ t, exec .ret s = .next t ∧ t.sp.val = s.sp.val - 1 ∧ t.pc = s.stack[s.sp.val - 1] ∧
      SameBut [.sp, .pc] s t) ∧
    (s.sp.val = 0 → ∃ t, exec .ret s = .next t ∧ t.HaltedWith .stackUnderflow (s.pc - 2) (some 0x00EE) none)

/-- §8 of the source (95_test_vectors.md E2): a CALL step to a RET, then the RET's step, is back after the CALL with the stack
pointer, the registers and memory as before, and every stack entry but the one at `sp`, which R26 calls stale. -/
def Obligations.CallThenRetReturnsAfterCall : Prop :=
  ∀ (s : State) (nnn : Addr12), s.NextInstr (.call nnn) → s.sp.val < 16 → nnn.toNat ≤ 4094 →
    s.wordAt nnn.toNat = 0x00EE →
    ∃ t, Host.Core.run core 2 s = .next t ∧ t.pc = s.pc + 2 ∧
      (∀ k : Fin 16, k.val ≠ s.sp.val → t.stack[k] = s.stack[k]) ∧ SameBut [.pc, .stack] s t

/-- R85: a JMP to its own address is a fixed point of step: it changes no field. -/
def Obligations.SelfJumpIsFixedPoint : Prop :=
  ∀ (s : State) (nnn : Addr12), s.NextInstr (.jmp nnn) → s.pc.toNat = nnn.toNat →
    ∀ n, Host.Core.run core n s = .next s

/-! ### Skips -/

/-- R92 to R95: each skip completes in every state, adds 2 to the pc exactly where its condition holds, and changes nothing
else. -/
def Obligations.SkipsAddTwoExactlyWhenConditionHolds : Prop :=
  Encodes 0x3000 0xF000 (fun w => .skipEqImm (regOfNibble (w.extractLsb' 8 4)) (w.extractLsb' 0 8)) ∧
  Encodes 0x4000 0xF000 (fun w => .skipNeqImm (regOfNibble (w.extractLsb' 8 4)) (w.extractLsb' 0 8)) ∧
  Encodes 0x5000 0xF00F (fun w => .skipEqReg (regOfNibble (w.extractLsb' 8 4)) (regOfNibble (w.extractLsb' 4 4))) ∧
  Encodes 0x9000 0xF00F (fun w => .skipNeqReg (regOfNibble (w.extractLsb' 8 4)) (regOfNibble (w.extractLsb' 4 4))) ∧
  ∀ (s : State) (x y : RegIdx) (nn : Byte),
    (∃ t, exec (.skipEqImm x nn) s = .next t ∧ t.pc = (if s.reg x = nn then s.pc + 2 else s.pc) ∧ SameBut [.pc] s t) ∧
    (∃ t, exec (.skipNeqImm x nn) s = .next t ∧ t.pc = (if s.reg x = nn then s.pc else s.pc + 2) ∧ SameBut [.pc] s t) ∧
    (∃ t, exec (.skipEqReg x y) s = .next t ∧ t.pc = (if s.reg x = s.reg y then s.pc + 2 else s.pc) ∧
      SameBut [.pc] s t) ∧
    (∃ t, exec (.skipNeqReg x y) s = .next t ∧ t.pc = (if s.reg x = s.reg y then s.pc else s.pc + 2) ∧
      SameBut [.pc] s t)

/-! ### Register with immediate, arithmetic and logic -/

/-- R96, R97: LOAD_IMM and ADD_IMM write `V[x]` alone; ADD_IMM wraps and sets no flag. -/
def Obligations.ImmediateLoadAndAddWriteOnlyX : Prop :=
  Encodes 0x6000 0xF000 (fun w => .loadImm (regOfNibble (w.extractLsb' 8 4)) (w.extractLsb' 0 8)) ∧
  Encodes 0x7000 0xF000 (fun w => .addImm (regOfNibble (w.extractLsb' 8 4)) (w.extractLsb' 0 8)) ∧
  ∀ (s : State) (x : RegIdx) (nn : Byte),
    (∃ t, exec (.loadImm x nn) s = .next t ∧ t.reg x = nn ∧ SameRegsBut [x] s t ∧ SameBut [.V] s t) ∧
    (∃ t, exec (.addImm x nn) s = .next t ∧ (t.reg x).toNat = ((s.reg x).toNat + nn.toNat) % 256 ∧
      SameRegsBut [x] s t ∧ SameBut [.V] s t)

/-- R99, R101 to R104: MOV, OR, AND, XOR write `V[x]` alone, bit by bit, and no flag. -/
def Obligations.MoveAndLogicWriteOnlyX : Prop :=
  Encodes 0x8000 0xF00F (fun w => .mov (regOfNibble (w.extractLsb' 8 4)) (regOfNibble (w.extractLsb' 4 4))) ∧
  Encodes 0x8001 0xF00F (fun w => .or (regOfNibble (w.extractLsb' 8 4)) (regOfNibble (w.extractLsb' 4 4))) ∧
  Encodes 0x8002 0xF00F (fun w => .and (regOfNibble (w.extractLsb' 8 4)) (regOfNibble (w.extractLsb' 4 4))) ∧
  Encodes 0x8003 0xF00F (fun w => .xor (regOfNibble (w.extractLsb' 8 4)) (regOfNibble (w.extractLsb' 4 4))) ∧
  ∀ (s : State) (x y : RegIdx),
    (∃ t, exec (.mov x y) s = .next t ∧ t.reg x = s.reg y ∧ SameRegsBut [x] s t ∧ SameBut [.V] s t) ∧
    (∃ t, exec (.or x y) s = .next t ∧ (∀ b, (t.reg x).getLsbD b = ((s.reg x).getLsbD b || (s.reg y).getLsbD b)) ∧
      SameRegsBut [x] s t ∧ SameBut [.V] s t) ∧
    (∃ t, exec (.and x y) s = .next t ∧ (∀ b, (t.reg x).getLsbD b = ((s.reg x).getLsbD b && (s.reg y).getLsbD b)) ∧
      SameRegsBut [x] s t ∧ SameBut [.V] s t) ∧
    (∃ t, exec (.xor x y) s = .next t ∧ (∀ b, (t.reg x).getLsbD b = ((s.reg x).getLsbD b != (s.reg y).getLsbD b)) ∧
      SameRegsBut [x] s t ∧ SameBut [.V] s t)

/-- R98, R105: ADD for all pairs, x = F and y = F among them: VF ends as the carry of the old values, and `V[x]`, where it is not
VF, as the wrapped sum. -/
def Obligations.AddWritesWrappedSumThenCarry : Prop :=
  Encodes 0x8004 0xF00F (fun w => .add (regOfNibble (w.extractLsb' 8 4)) (regOfNibble (w.extractLsb' 4 4))) ∧
  ∀ (s : State) (x y : RegIdx), ∃ t, exec (.add x y) s = .next t ∧
    (x ≠ VF → (t.reg x).toNat = ((s.reg x).toNat + (s.reg y).toNat) % 256) ∧
    (t.reg VF).toNat = (if 256 ≤ (s.reg x).toNat + (s.reg y).toNat then 1 else 0) ∧
    SameRegsBut [x, VF] s t ∧ SameBut [.V] s t

/-- R98, R106, R108: SUB and SUBN for all pairs: VF ends as NOT borrow of the old values, and `V[x]`, where it is not VF, as the
wrapped difference. -/
def Obligations.SubtractsWriteWrappedDifferenceThenNotBorrow : Prop :=
  Encodes 0x8005 0xF00F (fun w => .sub (regOfNibble (w.extractLsb' 8 4)) (regOfNibble (w.extractLsb' 4 4))) ∧
  Encodes 0x8007 0xF00F (fun w => .subn (regOfNibble (w.extractLsb' 8 4)) (regOfNibble (w.extractLsb' 4 4))) ∧
  ∀ (s : State) (x y : RegIdx),
    (∃ t, exec (.sub x y) s = .next t ∧
      (x ≠ VF → ((t.reg x).toNat : Int) = (((s.reg x).toNat : Int) - ((s.reg y).toNat : Int)) % 256) ∧
      (t.reg VF).toNat = (if (s.reg x).toNat < (s.reg y).toNat then 0 else 1) ∧
      SameRegsBut [x, VF] s t ∧ SameBut [.V] s t) ∧
    (∃ t, exec (.subn x y) s = .next t ∧
      (x ≠ VF → ((t.reg x).toNat : Int) = (((s.reg y).toNat : Int) - ((s.reg x).toNat : Int)) % 256) ∧
      (t.reg VF).toNat = (if (s.reg y).toNat < (s.reg x).toNat then 0 else 1) ∧
      SameRegsBut [x, VF] s t ∧ SameBut [.V] s t)

/-- R62, R98, R107, R109: SHR and SHL for all values: VF ends as the bit shifted out, and `V[x]`, where it is not VF, as the
shifted value; bits 7:4 of the word do not matter. -/
def Obligations.ShiftsWriteShiftedValueThenLostBit : Prop :=
  Encodes 0x8006 0xF00F (fun w => .shr (regOfNibble (w.extractLsb' 8 4))) ∧
  Encodes 0x800E 0xF00F (fun w => .shl (regOfNibble (w.extractLsb' 8 4))) ∧
  ∀ (s : State) (x : RegIdx),
    (∃ t, exec (.shr x) s = .next t ∧ (x ≠ VF → (t.reg x).toNat = (s.reg x).toNat / 2) ∧
      (t.reg VF).toNat = (s.reg x).toNat % 2 ∧ SameRegsBut [x, VF] s t ∧ SameBut [.V] s t) ∧
    (∃ t, exec (.shl x) s = .next t ∧ (x ≠ VF → (t.reg x).toNat = (s.reg x).toNat * 2 % 256) ∧
      (t.reg VF).toNat = (s.reg x).toNat / 128 ∧ SameRegsBut [x, VF] s t ∧ SameBut [.V] s t)

/-- R113: RAND writes `V[x]` alone with its input byte under the mask; the byte is the free value of the draw (the model's
form, log 2), or the one given to the step. -/
def Obligations.RandMasksItsInputByte : Prop :=
  Encodes 0xC000 0xF000 (fun w => .rand (regOfNibble (w.extractLsb' 8 4)) (w.extractLsb' 0 8)) ∧
  ∀ (s : State) (x : RegIdx) (nn : Byte),
    (∃ t, exec (.rand x nn) s = .next t ∧
      (∀ b, (t.reg x).getLsbD b = ((Config.rnd s.draws).getLsbD b && nn.getLsbD b)) ∧
      SameRegsBut [x] s t ∧ SameBut [.V, .draws] s t) ∧
    (∀ rnd, ∃ t, execWith rnd (.rand x nn) s = .next t ∧
      (∀ b, (t.reg x).getLsbD b = (rnd.getLsbD b && nn.getLsbD b)) ∧ SameRegsBut [x] s t ∧ SameBut [.V, .draws] s t)

/-! ### Draw -/

/-- R114, R115, R116: a DRAW whose rows are all in memory inverts exactly the cells its 1-bits land on, wrapping in both
directions, sets VF to 1 exactly where one of them was lit, and changes nothing else. -/
def Obligations.DrawInvertsSpriteCellsAndReportsCollision : Prop :=
  ∀ (s : State) (x y : RegIdx) (n : Nat), n ≤ 15 → (n = 0 ∨ s.I.toNat + n ≤ 4096) →
    ∃ t, exec (.draw x y n) s = .next t ∧
      (∀ px py, (s.SpriteOn x y n px py → t.cellAt px py = !s.cellAt px py) ∧
        (¬ s.SpriteOn x y n px py → t.cellAt px py = s.cellAt px py)) ∧
      ((∃ px py, s.SpriteOn x y n px py ∧ s.cellAt px py = true) → t.reg VF = 1) ∧
      ((¬ ∃ px py, s.SpriteOn x y n px py ∧ s.cellAt px py = true) → t.reg VF = 0) ∧
      SameRegsBut [VF] s t ∧ SameBut [.fb, .V] s t

/-- R114, R136: a DRAW with a row past memory raises MEMORY_BOUNDS with the first such address.
The record's pc0 and op are the model's form (log 8). -/
def Obligations.DrawPastMemoryHalts : Prop :=
  ∀ (s : State) (x y : RegIdx) (n : Nat), 0 < n → 4096 < s.I.toNat + n →
    ∃ t, exec (.draw x y n) s = .next t ∧
      t.HaltedWith .memoryBounds (s.pc - 2) (some (encode (.draw x y n))) (some (max s.I.toNat 4096))

/-- R117: with no rows, DRAW reads no memory, changes no cell, cannot fault whatever `I` is, and sets VF to 0. -/
def Obligations.DrawOfNoRowsClearsFlagOnly : Prop :=
  ∀ (s : State) (x y : RegIdx), ∃ t, exec (.draw x y 0) s = .next t ∧ t.reg VF = 0 ∧ SameRegsBut [VF] s t ∧ SameBut [.V] s t

/-- R118: the same sprite drawn again at the same place restores the framebuffer. The second flag is 1 exactly where the first
drawing lit a cell (R114, R116), so it is 1 for every sprite with a 1-bit where the first drawing erased nothing. R118's words
for it leave that condition out; over cells that were all lit R114 and R116 give 0 (log 15). -/
def Obligations.DrawTwiceRestoresScreen : Prop :=
  ∀ (s t : State) (x y x' y' : RegIdx) (n : Nat), n ≤ 15 → (n = 0 ∨ s.I.toNat + n ≤ 4096) →
    exec (.draw x y n) s = .next t → t.reg x' = s.reg x → t.reg y' = s.reg y →
    ∃ u, exec (.draw x' y' n) t = .next u ∧ u.fb = s.fb ∧
      (u.reg VF = 1 ↔ ∃ px py, s.SpriteOn x y n px py ∧ s.cellAt px py = false) ∧
      (t.reg VF = 0 → (∃ row, row < n ∧ s.mem.read (s.I.toNat + row) ≠ 0) → u.reg VF = 1)

/-! ### Keypad and timers -/

/-- R120, R121: SKIP_KEY and SKIP_NOKEY of a key in range complete, exactly one of the two skips, and nothing but the pc
changes; an index of 16 or more raises KEY_INDEX_BOUNDS with it.
The record's pc0 and op are the model's form (log 8). -/
def Obligations.KeySkipsTestKeyOrHalt : Prop :=
  ∀ (s : State) (x : RegIdx),
    (∀ k : Fin 16, (s.reg x).toNat = k.val →
      (∃ t, exec (.skipKey x) s = .next t ∧ t.pc = (if s.keys[k] = true then s.pc + 2 else s.pc) ∧ SameBut [.pc] s t) ∧
      (∃ t, exec (.skipNokey x) s = .next t ∧ t.pc = (if s.keys[k] = true then s.pc else s.pc + 2) ∧
        SameBut [.pc] s t)) ∧
    (16 ≤ (s.reg x).toNat →
      (∃ t, exec (.skipKey x) s = .next t ∧
        t.HaltedWith .keyIndexBounds (s.pc - 2) (some (encode (.skipKey x))) (some (s.reg x).toNat)) ∧
      (∃ t, exec (.skipNokey x) s = .next t ∧
        t.HaltedWith .keyIndexBounds (s.pc - 2) (some (encode (.skipNokey x))) (some (s.reg x).toNat)))

/-- R122, R123(a), (b): with a key pressed WAIT_KEY stores the lowest pressed index and changes nothing else; with none it
changes nothing but the pc, which it rewinds to itself. -/
def Obligations.WaitKeyStoresLowestKeyOrRewinds : Prop :=
  Encodes 0xF00A 0xF0FF (fun w => .waitKey (regOfNibble (w.extractLsb' 8 4))) ∧
  ∀ (s : State) (x : RegIdx),
    (∀ k : Fin 16, s.keys[k] = true → (∀ j : Fin 16, j.val < k.val → s.keys[j] = false) →
      ∃ t, exec (.waitKey x) s = .next t ∧ (t.reg x).toNat = k.val ∧ SameRegsBut [x] s t ∧ SameBut [.V] s t) ∧
    ((∀ k : Fin 16, s.keys[k] = false) →
      ∃ t, exec (.waitKey x) s = .next t ∧ t.pc = s.pc - 2 ∧ SameBut [.pc] s t)

/-- R123(c), (d): while no key is pressed, steps at a WAIT_KEY leave every field unchanged however many they are; with a key
pressed one step completes it. -/
def Obligations.WaitKeyBlocksUntilKeyPressed : Prop :=
  ∀ (s : State) (x : RegIdx), s.NextInstr (.waitKey x) →
    ((∀ k : Fin 16, s.keys[k] = false) → ∀ n, Host.Core.run core n s = .next s) ∧
    ((∃ k : Fin 16, s.keys[k] = true) → ∃ t, step s = .next t ∧ t.pc = s.pc + 2 ∧ t.keys = s.keys ∧
      ∃ k : Fin 16, s.keys[k] = true ∧ (t.reg x).toNat = k.val)

/-- R124 to R126: LOAD_DT copies the delay timer to `V[x]`, SET_DT and SET_ST copy `V[x]` to a timer; nothing else changes. -/
def Obligations.TimerInstructionsCopyOneByte : Prop :=
  Encodes 0xF007 0xF0FF (fun w => .loadDt (regOfNibble (w.extractLsb' 8 4))) ∧
  Encodes 0xF015 0xF0FF (fun w => .setDt (regOfNibble (w.extractLsb' 8 4))) ∧
  Encodes 0xF018 0xF0FF (fun w => .setSt (regOfNibble (w.extractLsb' 8 4))) ∧
  ∀ (s : State) (x : RegIdx),
    (∃ t, exec (.loadDt x) s = .next t ∧ t.reg x = s.DT ∧ SameRegsBut [x] s t ∧ SameBut [.V] s t) ∧
    (∃ t, exec (.setDt x) s = .next t ∧ t.DT = s.reg x ∧ SameBut [.DT] s t) ∧
    (∃ t, exec (.setSt x) s = .next t ∧ t.ST = s.reg x ∧ SameBut [.ST] s t)

/-! ### Index arithmetic, font lookup, memory transfer -/

/-- R127: ADD_I wraps at 16 bits, sets no flag, and completes whatever the sum. -/
def Obligations.AddIndexWrapsAtSixteenBits : Prop :=
  Encodes 0xF01E 0xF0FF (fun w => .addI (regOfNibble (w.extractLsb' 8 4))) ∧
  ∀ (s : State) (x : RegIdx), ∃ t, exec (.addI x) s = .next t ∧
    t.I.toNat = (s.I.toNat + (s.reg x).toNat) % 65536 ∧ SameBut [.I] s t

/-- R128: FONT_ADDR of a glyph 0..15 sets `I` to five times its number; a larger value raises FONT_INDEX_BOUNDS with it.
The record's pc0 and op are the model's form (log 8). -/
def Obligations.FontAddressOfGlyphOrHalts : Prop :=
  Encodes 0xF029 0xF0FF (fun w => .fontAddr (regOfNibble (w.extractLsb' 8 4))) ∧
  ∀ (s : State) (x : RegIdx),
    ((s.reg x).toNat < 16 →
      ∃ t, exec (.fontAddr x) s = .next t ∧ t.I.toNat = (s.reg x).toNat * 5 ∧ SameBut [.I] s t) ∧
    (16 ≤ (s.reg x).toNat → ∃ t, exec (.fontAddr x) s = .next t ∧
      t.HaltedWith .fontIndexBounds (s.pc - 2) (some (encode (.fontAddr x))) (some (s.reg x).toNat))

/-- R129: BCD with its three addresses in memory stores hundreds, tens and ones at `I`, `I + 1`, `I + 2` and changes nothing
else; otherwise it raises MEMORY_BOUNDS at the first address out of range.
The record's pc0 and op are the model's form (log 8). -/
def Obligations.BcdStoresThreeDigitsOrHalts : Prop :=
  Encodes 0xF033 0xF0FF (fun w => .bcd (regOfNibble (w.extractLsb' 8 4))) ∧
  ∀ (s : State) (x : RegIdx),
    (s.I.toNat + 2 < 4096 → ∃ t, exec (.bcd x) s = .next t ∧
      (t.mem.read s.I.toNat).toNat = (s.reg x).toNat / 100 ∧
      (t.mem.read (s.I.toNat + 1)).toNat = (s.reg x).toNat / 10 % 10 ∧
      (t.mem.read (s.I.toNat + 2)).toNat = (s.reg x).toNat % 10 ∧
      SameBytesOutside s.I.toNat 3 s t ∧ SameBut [.mem] s t) ∧
    (4096 ≤ s.I.toNat + 2 → ∃ t, exec (.bcd x) s = .next t ∧
      t.HaltedWith .memoryBounds (s.pc - 2) (some (encode (.bcd x))) (some (max s.I.toNat 4096)))

/-- R130: STORE_REGS with its addresses in memory stores `V[0]`..`V[x]` from `I` on and changes nothing else, `I` included;
otherwise it raises MEMORY_BOUNDS at the first address out of range.
The record's pc0 and op are the model's form (log 8). -/
def Obligations.StoreRegsCopiesRegistersOrHalts : Prop :=
  Encodes 0xF055 0xF0FF (fun w => .storeRegs (regOfNibble (w.extractLsb' 8 4))) ∧
  ∀ (s : State) (x : RegIdx),
    (s.I.toNat + x.val < 4096 → ∃ t, exec (.storeRegs x) s = .next t ∧
      (∀ k : RegIdx, k ≤ x → t.mem.read (s.I.toNat + k.val) = s.reg k) ∧
      SameBytesOutside s.I.toNat (x.val + 1) s t ∧ SameBut [.mem] s t) ∧
    (4096 ≤ s.I.toNat + x.val → ∃ t, exec (.storeRegs x) s = .next t ∧
      t.HaltedWith .memoryBounds (s.pc - 2) (some (encode (.storeRegs x))) (some (max s.I.toNat 4096)))

/-- R131: LOAD_REGS with its addresses in memory loads `V[0]`..`V[x]` from `I` on and changes nothing else, `I` included;
otherwise it raises MEMORY_BOUNDS at the first address out of range.
The record's pc0 and op are the model's form (log 8). -/
def Obligations.LoadRegsCopiesMemoryOrHalts : Prop :=
  Encodes 0xF065 0xF0FF (fun w => .loadRegs (regOfNibble (w.extractLsb' 8 4))) ∧
  ∀ (s : State) (x : RegIdx),
    (s.I.toNat + x.val < 4096 → ∃ t, exec (.loadRegs x) s = .next t ∧
      (∀ k : RegIdx, k ≤ x → t.reg k = s.mem.read (s.I.toNat + k.val)) ∧
      (∀ k : RegIdx, ¬ k ≤ x → t.reg k = s.reg k) ∧ SameBut [.V] s t) ∧
    (4096 ≤ s.I.toNat + x.val → ∃ t, exec (.loadRegs x) s = .next t ∧
      t.HaltedWith .memoryBounds (s.pc - 2) (some (encode (.loadRegs x))) (some (max s.I.toNat 4096)))

/-- The round trip of R131 (95_test_vectors.md E3): STORE_REGS, any change of the registers, then LOAD_REGS from the same `I`
restores `V[0]`..`V[x]`. -/
def Obligations.StoreThenLoadRestoresRegisters : Prop :=
  ∀ (s t u : State) (x : RegIdx), s.I.toNat + x.val < 4096 → exec (.storeRegs x) s = .next t → SameBut [.V] t u →
    ∃ v, exec (.loadRegs x) u = .next v ∧ (∀ k : RegIdx, k ≤ x → v.reg k = s.reg k) ∧
      (∀ k : RegIdx, ¬ k ≤ x → v.reg k = u.reg k) ∧ SameBut [.V] u v

/-- R52, R41: the two bytes STORE_REGS writes at an address are the word the next fetch from that address reads, high byte
first. -/
def Obligations.StoredWordIsFetchedNext : Prop :=
  ∀ (s t : State) (x : RegIdx) (a : Nat), exec (.storeRegs x) s = .next t → s.I.toNat + x.val < 4096 →
    a + 1 ≤ x.val →
    ∀ pc : Word, pc.toNat = s.I.toNat + a →
      ∃ hi lo : RegIdx, hi.val = a ∧ lo.val = a + 1 ∧ (t.setPc pc).fetch = .ok (wordOfBytes (s.reg hi) (s.reg lo))

/-! ### Host commands -/

/-- R73: load of at most 3584 bytes writes them from 0x200 on and nothing else; a longer one raises LOAD_OVERFLOW and changes
nothing but the status; from HALTED it changes nothing and returns the latched fault. -/
def Obligations.LoadWritesProgramSpaceOrHalts : Prop :=
  ∀ (s : State) (bytes : List Byte),
    (s.status = .ready → bytes.length ≤ 3584 → ∃ t, Command.perform (.load bytes) s = .next (t, .ok) ∧
      (∀ k, (h : k < bytes.length) → t.mem.read (0x200 + k) = bytes[k]) ∧
      SameBytesOutside 0x200 bytes.length s t ∧ SameBut [.mem] s t) ∧
    (s.status = .ready → 3584 < bytes.length → ∃ t r, Command.perform (.load bytes) s = .next (t, .fault r) ∧
      r = { code := .loadOverflow, command := .load, pc0 := none, op := none, info := some bytes.length } ∧
      t.status = .halted r ∧ SameBut [.status] s t) ∧
    (∀ r, s.status = .halted r → Command.perform (.load bytes) s = .next (s, .fault r))

/-- R80: from READY, tick takes one from each timer that is not zero and changes nothing else; from HALTED it changes
nothing. -/
def Obligations.TickDecrementsNonzeroTimers : Prop :=
  ∀ s : State,
    (s.status = .ready → ∃ t, Command.perform .tick s = .next (t, .ok) ∧
      (0 < s.DT.toNat → t.DT.toNat = s.DT.toNat - 1) ∧ (s.DT = 0 → t.DT = 0) ∧
      (0 < s.ST.toNat → t.ST.toNat = s.ST.toNat - 1) ∧ (s.ST = 0 → t.ST = 0) ∧ SameBut [.DT, .ST] s t) ∧
    (∀ r, s.status = .halted r → Command.perform .tick s = .next (s, .fault r))

/-- R30, R80: after `n` ticks in a row each timer holds its value less `n`, floored at zero. -/
def Obligations.TicksCountTimersDownToZero : Prop :=
  ∀ (n : Nat) (s : State), s.status = .ready → ∃ t, Command.performAll (List.replicate n .tick) s = .next t ∧
    t.DT.toNat = s.DT.toNat - n ∧ t.ST.toNat = s.ST.toNat - n ∧ SameBut [.DT, .ST] s t

/-- R81: display returns the grid of the framebuffer, cell (px, py) at px + 64 * py, and changes no state, in READY and HALTED
alike. -/
def Obligations.DisplayReturnsFramebufferGrid : Prop :=
  ∀ s : State, ∃ g, Command.perform .display s = .next (s, .grid g) ∧
    ∀ (px : Fin 64) (py : Fin 32), ∃ k : CellIdx, k.val = px.val + 64 * py.val ∧ gridCell g px py = s.fb[k]

/-- R82: from READY, set_key of an index below 16 sets that slot and nothing else; a larger index raises KEY_INDEX_BOUNDS and
changes nothing but the status; from HALTED it changes nothing. -/
def Obligations.SetKeySetsOneSlotOrHalts : Prop :=
  ∀ (s : State) (index : Nat) (pressed : Bool),
    (s.status = .ready → ∀ k : Fin 16, k.val = index → ∃ t,
      Command.perform (.setKey index pressed) s = .next (t, .ok) ∧ t.keys[k] = pressed ∧
      (∀ j : Fin 16, j ≠ k → t.keys[j] = s.keys[j]) ∧ SameBut [.keys] s t) ∧
    (s.status = .ready → 16 ≤ index → ∃ t r, Command.perform (.setKey index pressed) s = .next (t, .fault r) ∧
      r = { code := .keyIndexBounds, command := .setKey, pc0 := none, op := none, info := some index } ∧
      t.status = .halted r ∧ SameBut [.status] s t) ∧
    (∀ r, s.status = .halted r → Command.perform (.setKey index pressed) s = .next (s, .fault r))

/-- R151, R152: after reset and a load, from any state, the pc is 0x200 and the first fetch reads the program's first two bytes;
a load alone leaves the pc where it was. -/
def Obligations.BootFetchesFirstProgramWord : Prop :=
  ∀ (s : State) (hi lo : Byte) (rest : List Byte), rest.length + 2 ≤ 3584 →
    (∃ t, Command.performAll [.reset, .load (hi :: lo :: rest)] s = .next t ∧ t.pc = 0x200 ∧ t.status = .ready ∧
      t.fetch = .ok (wordOfBytes hi lo)) ∧
    (s.status = .ready → ∃ t, Command.performAll [.load (hi :: lo :: rest)] s = .next t ∧ t.pc = s.pc)

/-- R153: stepping without a load executes 1792 NOPs from 0x200 on; the next step raises MEMORY_BOUNDS(0x1000) in its fetch. -/
def Obligations.EmptyMachineRunsNopsThenHalts : Prop :=
  (∀ k, k ≤ 1792 → ∃ t, Host.Core.run core k core.reset = .next t ∧ t.pc.toNat = 0x200 + 2 * k ∧
    SameBut [.pc] State.reset t) ∧
  ∃ t, Host.Core.run core 1793 core.reset = .next t ∧ t.HaltedWith .memoryBounds 0x1000 none (some 0x1000)
end

