-- ==== Sys2Proof/Laws/Memory.lean ====
section
/-! SUPPORT. The laws of memory: a read after a write, the canonical form, and what the byte-list accesses of R39 do. -/

namespace Sys2Proof.Machine

namespace Memory

@[simp] theorem read_nil (a : Nat) : Memory.read [] a = background a := rfl

@[simp] theorem read_cons (c : Host.Cell) (m : Memory) (a : Nat) :
    Memory.read (c :: m) a = if a = c.1 then c.2 else Memory.read m a := rfl

theorem read_erase (m : Memory) (a b : Nat) : (m.erase a).read b = if b = a then background a else m.read b := by
  induction m with
  | nil => by_cases h : b = a <;> simp [erase, h]
  | cons c m ih =>
    by_cases hc : c.1 = a
    · have : Memory.erase (c :: m) a = Memory.erase m a := by simp [erase, hc]
      rw [this, ih, read_cons, hc]
      split <;> rfl
    · have : Memory.erase (c :: m) a = c :: Memory.erase m a := by simp [erase, hc]
      rw [this, read_cons, read_cons, ih]
      by_cases hb : b = a
      · subst hb; simp [Ne.symm hc]
      · simp [hb]

theorem read_cons' (a b : Nat) (v : Byte) (m : Memory) (h : m.read a = background a) :
    (Memory.cons a v m).read b = if b = a then v else m.read b := by
  unfold Memory.cons
  split
  · rename_i hv
    by_cases hb : b = a
    · subst hb; simp [h, hv]
    · simp [hb]
  · simp

theorem read_insert (a b : Nat) (v : Byte) (m : Memory) (h : ∀ c ∈ m, c.1 ≠ a) :
    (Memory.insert a v m).read b = if b = a then v else m.read b := by
  have hbg : ∀ m : Memory, (∀ c ∈ m, c.1 ≠ a) → m.read a = background a := by
    intro m
    induction m with
    | nil => simp
    | cons c m ih => intro h; simp [Ne.symm (h c (by simp)), ih fun d hd => h d (by simp [hd])]
  induction m with
  | nil => exact read_cons' a b v [] rfl
  | cons c m ih =>
    unfold Memory.insert
    split
    · exact read_cons' a b v _ (hbg _ h)
    · rw [read_cons, ih fun d hd => h d (by simp [hd]), read_cons]
      have := h c (by simp)
      by_cases hb : b = a
      · subst hb; simp [Ne.symm this]
      · simp [hb]

/-- A read after a write: the value written, and every other address as before; for every memory, canonical or not. -/
@[simp] theorem read_write (m : Memory) (a b : Nat) (v : Byte) :
    (m.write a v).read b = if b = a then v else m.read b := by
  unfold write
  rw [read_insert a b v _ (by simp [erase]), read_erase]
  split <;> simp_all

theorem mem_insert {a : Nat} {v : Byte} {m : Memory} {c : Host.Cell} (h : c ∈ Memory.insert a v m) :
    c ∈ m ∨ (c = (a, v) ∧ v ≠ background a) := by
  induction m with
  | nil => simp only [Memory.insert, Memory.cons] at h; split at h <;> simp_all
  | cons d m ih =>
    simp only [Memory.insert, Memory.cons] at h
    split at h
    · split at h <;> simp_all; rcases h with h | h | h <;> simp_all
    · rcases List.mem_cons.1 h with h | h
      · simp [h]
      · rcases ih h with h | h <;> simp [h]

theorem insert_sorted {a : Nat} {v : Byte} {m : Memory} (hm : m.Pairwise (fun c d => c.1 < d.1))
    (ha : ∀ c ∈ m, c.1 ≠ a) : (Memory.insert a v m).Pairwise (fun c d => c.1 < d.1) := by
  induction m with
  | nil => simp only [Memory.insert, Memory.cons]; split <;> simp
  | cons d m ih =>
    rw [List.pairwise_cons] at hm
    simp only [Memory.insert, Memory.cons]
    split
    · rename_i had
      split
      · exact List.pairwise_cons.2 hm
      · refine List.pairwise_cons.2 ⟨fun c hc => ?_, List.pairwise_cons.2 hm⟩
        rcases List.mem_cons.1 hc with rfl | hc
        · exact had
        · exact Nat.lt_trans had (hm.1 c hc)
    · rename_i had
      have hne := ha d (by simp)
      refine List.pairwise_cons.2 ⟨fun c hc => ?_, ih hm.2 fun c hc => ha c (by simp [hc])⟩
      rcases mem_insert hc with hc | ⟨rfl, -⟩
      · exact hm.1 c hc
      · simp only; omega

theorem wf_nil : Memory.wf [] := by simp [wf]

/-- A write inside memory keeps the canonical form. -/
theorem wf_write {m : Memory} (h : m.wf) {a : Nat} (ha : a < 4096) (v : Byte) : (m.write a v).wf := by
  obtain ⟨hs, hc⟩ := h
  have he : ∀ c ∈ m.erase a, c ∈ m ∧ c.1 ≠ a := by simp [erase]
  refine ⟨insert_sorted (hs.filter _) fun c hc => (he c hc).2, fun c hin => ?_⟩
  rcases mem_insert hin with hin | ⟨rfl, hv⟩
  · exact hc c (he c hin).1
  · exact ⟨ha, hv⟩

/-- In a canonical memory only addresses below 4096 are listed. -/
theorem lt_of_listed {m : Memory} (h : m.wf) {c : Host.Cell} (hc : c ∈ m) : c.1 < 4096 := (h.2 c hc).1

/-- Canonical memories are equal as data exactly when they read the same everywhere. -/
theorem eq_of_read {m n : Memory} (hm : m.wf) (hn : n.wf) (h : ∀ a, m.read a = n.read a) : m = n := by
  have low : ∀ {m : Memory}, m.wf → ∀ {a : Nat}, (∀ c ∈ m, a < c.1) → m.read a = background a := by
    intro m
    induction m with
    | nil => intros; rfl
    | cons c m ih =>
      intro hw a ha
      have := ha c (by simp)
      rw [read_cons, if_neg (by omega), ih ⟨(List.pairwise_cons.1 hw.1).2, fun d hd => hw.2 d (by simp [hd])⟩
        fun d hd => ha d (by simp [hd])]
  induction m generalizing n with
  | nil =>
    cases n with
    | nil => rfl
    | cons d n => exact absurd (by simpa using (h d.1).symm) (hn.2 d (by simp)).2
  | cons c m ih =>
    cases n with
    | nil => exact absurd (by simpa using h c.1) (hm.2 c (by simp)).2
    | cons d n =>
      have hm' : Memory.wf m := ⟨(List.pairwise_cons.1 hm.1).2, fun e he => hm.2 e (by simp [he])⟩
      have hn' : Memory.wf n := ⟨(List.pairwise_cons.1 hn.1).2, fun e he => hn.2 e (by simp [he])⟩
      have hcm := (List.pairwise_cons.1 hm.1).1
      have hdn := (List.pairwise_cons.1 hn.1).1
      have hcd : c.1 = d.1 := by
        rcases Nat.lt_trichotomy c.1 d.1 with hlt | heq | hgt
        · have := h c.1
          rw [low hn (a := c.1) (fun e he => by
            rcases List.mem_cons.1 he with rfl | he
            · exact hlt
            · exact Nat.lt_trans hlt (hdn e he))] at this
          exact absurd (by simpa using this) (hm.2 c (by simp)).2
        · exact heq
        · have := h d.1
          rw [low hm (a := d.1) (fun e he => by
            rcases List.mem_cons.1 he with rfl | he
            · exact hgt
            · exact Nat.lt_trans hgt (hcm e he))] at this
          exact absurd (by simpa using this.symm) (hn.2 d (by simp)).2
      have hv : c = d := Prod.ext hcd (by simpa [hcd] using h c.1)
      subst hv
      rw [ih hm' hn' fun a => ?_]
      by_cases ha : a = c.1
      · subst ha; rw [low hm' hcm, low hn' hdn]
      · simpa [ha] using h a

end Memory

theorem memRead_eq (m : Memory) (a : Nat) : memRead m a = if a < 4096 then .ok (m.read a) else .error a := rfl

theorem memWrite_eq (m : Memory) (a : Nat) (v : Byte) : memWrite m a v = if a < 4096 then .ok (m.write a v) else .error a :=
  rfl

/-- The first address out of range of `n` bytes from `a` on, where there is one (R136). -/
def firstBad (a n : Nat) : Option Nat := if n = 0 ∨ a + n ≤ 4096 then none else some (max a 4096)

theorem firstBad_succ (a n : Nat) (h : a < 4096) : firstBad (a + 1) n = firstBad a (n + 1) := by
  unfold firstBad
  rcases Nat.eq_zero_or_pos n with rfl | hn
  · simp; omega
  · have e : (n = 0 ∨ a + 1 + n ≤ 4096) ↔ (n + 1 = 0 ∨ a + (n + 1) ≤ 4096) := by omega
    have e' : max (a + 1) 4096 = max a 4096 := by omega
    simp only [e, e']

theorem firstBad_eq_none (a n : Nat) : firstBad a n = none ↔ n = 0 ∨ a + n ≤ 4096 := by
  unfold firstBad; split <;> simp_all

theorem firstBad_eq_some (a n b : Nat) : firstBad a n = some b ↔ n ≠ 0 ∧ 4096 < a + n ∧ b = max a 4096 := by
  unfold firstBad; split <;> simp_all <;> omega

/-- Everything `loadBytes` answers: the bytes at the addresses in range, in order, and the first address out of range. -/
theorem loadBytes_eq (m : Memory) (a n : Nat) :
    loadBytes m a n = ((List.range (min n (4096 - a))).map fun k => m.read (a + k), firstBad a n) := by
  induction n generalizing a with
  | zero => simp [loadBytes, firstBad]
  | succ n ih =>
    by_cases h : a < 4096
    · have e : min (n + 1) (4096 - a) = min n (4096 - (a + 1)) + 1 := by omega
      simp only [loadBytes, memRead_eq, h, if_true, ih, firstBad_succ a n h, e, List.range_succ_eq_map, List.map_cons,
        List.map_map, Nat.add_zero]
      congr 3
      funext k
      simp only [Function.comp]
      congr 1
      omega
    · have e : min (n + 1) (4096 - a) = 0 := by omega
      have e' : firstBad a (n + 1) = some a := by unfold firstBad; rw [if_neg (by omega)]; simp; omega
      simp [loadBytes, memRead_eq, h, e, e']

theorem storeBytes_bad (m : Memory) (a : Nat) (vs : List Byte) : (storeBytes m a vs).2 = firstBad a vs.length := by
  induction vs generalizing m a with
  | nil => simp [storeBytes, firstBad]
  | cons v vs ih =>
    by_cases h : a < 4096
    · simp only [storeBytes, memWrite_eq, h, if_true, ih, firstBad_succ a _ h, List.length_cons]
    · have e' : firstBad a (vs.length + 1) = some a := by unfold firstBad; rw [if_neg (by omega)]; simp; omega
      simp [storeBytes, memWrite_eq, h, e']

/-- What every address reads as after `storeBytes`: the bytes stored at the addresses in range, all others as before. -/
theorem storeBytes_read (m : Memory) (a : Nat) (vs : List Byte) (b : Nat) :
    (storeBytes m a vs).1.read b =
      if a ≤ b ∧ b < 4096 then (vs[b - a]?).getD (m.read b) else m.read b := by
  induction vs generalizing m a with
  | nil => simp [storeBytes]
  | cons v vs ih =>
    by_cases h : a < 4096
    · simp only [storeBytes, memWrite_eq, h, if_true, ih, Memory.read_write]
      by_cases hb : b = a
      · subst hb; simp [h]
      · by_cases hab : a + 1 ≤ b
        · have e : b - a = (b - (a + 1)) + 1 := by omega
          simp [hb, hab, e, show a ≤ b by omega]
        · simp [hb, hab, show ¬ a ≤ b by omega]
    · simp only [storeBytes, memWrite_eq, h, if_false]
      rw [if_neg (by omega)]

theorem storeBytes_wf {m : Memory} (h : m.wf) (a : Nat) (vs : List Byte) : (storeBytes m a vs).1.wf := by
  induction vs generalizing m a with
  | nil => exact h
  | cons v vs ih =>
    by_cases ha : a < 4096
    · simp only [storeBytes, memWrite_eq, ha, if_true]
      exact ih (Memory.wf_write h ha v) _
    · simpa [storeBytes, memWrite_eq, ha] using h

theorem writeBytes_read (m : Memory) (a : Nat) (vs : List Byte) (b : Nat) :
    (State.writeBytes m a vs).read b = if a ≤ b then (vs[b - a]?).getD (m.read b) else m.read b := by
  induction vs generalizing m a with
  | nil => simp [State.writeBytes]
  | cons v vs ih =>
    simp only [State.writeBytes, ih, Memory.read_write]
    by_cases hb : b = a
    · subst hb; simp
    · by_cases hab : a + 1 ≤ b
      · have e : b - a = (b - (a + 1)) + 1 := by omega
        simp [hb, hab, e, show a ≤ b by omega]
      · simp [hb, hab, show ¬ a ≤ b by omega]

theorem writeBytes_wf {m : Memory} (h : m.wf) (a : Nat) (vs : List Byte) (ha : a + vs.length ≤ 4096) :
    (State.writeBytes m a vs).wf := by
  induction vs generalizing m a with
  | nil => exact h
  | cons v vs ih =>
    simp only [List.length_cons] at ha
    exact ih (Memory.wf_write h (by omega) v) _ (by omega)

end Sys2Proof.Machine
end

