-- ==== Sys2Proof/Laws/State.lean ====
section
/-! SUPPORT. One lemma per field per update of the state, true by rfl, so that no proof unfolds a record update; and what a
register reads after each update. -/

namespace Sys2Proof.Machine.State

@[simp] theorem setPc_mem (s : State) (w : Word) : (s.setPc w).mem = s.mem := rfl
@[simp] theorem setPc_pc (s : State) (w : Word) : (s.setPc w).pc = w := rfl
@[simp] theorem setPc_V (s : State) (w : Word) : (s.setPc w).V = s.V := rfl
@[simp] theorem setPc_I (s : State) (w : Word) : (s.setPc w).I = s.I := rfl
@[simp] theorem setPc_stack (s : State) (w : Word) : (s.setPc w).stack = s.stack := rfl
@[simp] theorem setPc_sp (s : State) (w : Word) : (s.setPc w).sp = s.sp := rfl
@[simp] theorem setPc_fb (s : State) (w : Word) : (s.setPc w).fb = s.fb := rfl
@[simp] theorem setPc_keys (s : State) (w : Word) : (s.setPc w).keys = s.keys := rfl
@[simp] theorem setPc_DT (s : State) (w : Word) : (s.setPc w).DT = s.DT := rfl
@[simp] theorem setPc_ST (s : State) (w : Word) : (s.setPc w).ST = s.ST := rfl
@[simp] theorem setPc_status (s : State) (w : Word) : (s.setPc w).status = s.status := rfl
@[simp] theorem setPc_draws (s : State) (w : Word) : (s.setPc w).draws = s.draws := rfl
@[simp] theorem setPc_reg (s : State) (w : Word) (q : RegIdx) : (s.setPc w).reg q = s.reg q := rfl

@[simp] theorem setReg_mem (s : State) (r : RegIdx) (v : Byte) : (s.setReg r v).mem = s.mem := rfl
@[simp] theorem setReg_pc (s : State) (r : RegIdx) (v : Byte) : (s.setReg r v).pc = s.pc := rfl
@[simp] theorem setReg_V (s : State) (r : RegIdx) (v : Byte) : (s.setReg r v).V = s.V.set r v := rfl
@[simp] theorem setReg_I (s : State) (r : RegIdx) (v : Byte) : (s.setReg r v).I = s.I := rfl
@[simp] theorem setReg_stack (s : State) (r : RegIdx) (v : Byte) : (s.setReg r v).stack = s.stack := rfl
@[simp] theorem setReg_sp (s : State) (r : RegIdx) (v : Byte) : (s.setReg r v).sp = s.sp := rfl
@[simp] theorem setReg_fb (s : State) (r : RegIdx) (v : Byte) : (s.setReg r v).fb = s.fb := rfl
@[simp] theorem setReg_keys (s : State) (r : RegIdx) (v : Byte) : (s.setReg r v).keys = s.keys := rfl
@[simp] theorem setReg_DT (s : State) (r : RegIdx) (v : Byte) : (s.setReg r v).DT = s.DT := rfl
@[simp] theorem setReg_ST (s : State) (r : RegIdx) (v : Byte) : (s.setReg r v).ST = s.ST := rfl
@[simp] theorem setReg_status (s : State) (r : RegIdx) (v : Byte) : (s.setReg r v).status = s.status := rfl
@[simp] theorem setReg_draws (s : State) (r : RegIdx) (v : Byte) : (s.setReg r v).draws = s.draws := rfl

@[simp] theorem setI_mem (s : State) (w : Word) : (s.setI w).mem = s.mem := rfl
@[simp] theorem setI_pc (s : State) (w : Word) : (s.setI w).pc = s.pc := rfl
@[simp] theorem setI_V (s : State) (w : Word) : (s.setI w).V = s.V := rfl
@[simp] theorem setI_I (s : State) (w : Word) : (s.setI w).I = w := rfl
@[simp] theorem setI_stack (s : State) (w : Word) : (s.setI w).stack = s.stack := rfl
@[simp] theorem setI_sp (s : State) (w : Word) : (s.setI w).sp = s.sp := rfl
@[simp] theorem setI_fb (s : State) (w : Word) : (s.setI w).fb = s.fb := rfl
@[simp] theorem setI_keys (s : State) (w : Word) : (s.setI w).keys = s.keys := rfl
@[simp] theorem setI_DT (s : State) (w : Word) : (s.setI w).DT = s.DT := rfl
@[simp] theorem setI_ST (s : State) (w : Word) : (s.setI w).ST = s.ST := rfl
@[simp] theorem setI_status (s : State) (w : Word) : (s.setI w).status = s.status := rfl
@[simp] theorem setI_draws (s : State) (w : Word) : (s.setI w).draws = s.draws := rfl
@[simp] theorem setI_reg (s : State) (w : Word) (q : RegIdx) : (s.setI w).reg q = s.reg q := rfl

@[simp] theorem setMem_mem (s : State) (m : Memory) : (s.setMem m).mem = m := rfl
@[simp] theorem setMem_pc (s : State) (m : Memory) : (s.setMem m).pc = s.pc := rfl
@[simp] theorem setMem_V (s : State) (m : Memory) : (s.setMem m).V = s.V := rfl
@[simp] theorem setMem_I (s : State) (m : Memory) : (s.setMem m).I = s.I := rfl
@[simp] theorem setMem_stack (s : State) (m : Memory) : (s.setMem m).stack = s.stack := rfl
@[simp] theorem setMem_sp (s : State) (m : Memory) : (s.setMem m).sp = s.sp := rfl
@[simp] theorem setMem_fb (s : State) (m : Memory) : (s.setMem m).fb = s.fb := rfl
@[simp] theorem setMem_keys (s : State) (m : Memory) : (s.setMem m).keys = s.keys := rfl
@[simp] theorem setMem_DT (s : State) (m : Memory) : (s.setMem m).DT = s.DT := rfl
@[simp] theorem setMem_ST (s : State) (m : Memory) : (s.setMem m).ST = s.ST := rfl
@[simp] theorem setMem_status (s : State) (m : Memory) : (s.setMem m).status = s.status := rfl
@[simp] theorem setMem_draws (s : State) (m : Memory) : (s.setMem m).draws = s.draws := rfl
@[simp] theorem setMem_reg (s : State) (m : Memory) (q : RegIdx) : (s.setMem m).reg q = s.reg q := rfl

@[simp] theorem setFb_mem (s : State) (f : Vector Bool 2048) : (s.setFb f).mem = s.mem := rfl
@[simp] theorem setFb_pc (s : State) (f : Vector Bool 2048) : (s.setFb f).pc = s.pc := rfl
@[simp] theorem setFb_V (s : State) (f : Vector Bool 2048) : (s.setFb f).V = s.V := rfl
@[simp] theorem setFb_I (s : State) (f : Vector Bool 2048) : (s.setFb f).I = s.I := rfl
@[simp] theorem setFb_stack (s : State) (f : Vector Bool 2048) : (s.setFb f).stack = s.stack := rfl
@[simp] theorem setFb_sp (s : State) (f : Vector Bool 2048) : (s.setFb f).sp = s.sp := rfl
@[simp] theorem setFb_fb (s : State) (f : Vector Bool 2048) : (s.setFb f).fb = f := rfl
@[simp] theorem setFb_keys (s : State) (f : Vector Bool 2048) : (s.setFb f).keys = s.keys := rfl
@[simp] theorem setFb_DT (s : State) (f : Vector Bool 2048) : (s.setFb f).DT = s.DT := rfl
@[simp] theorem setFb_ST (s : State) (f : Vector Bool 2048) : (s.setFb f).ST = s.ST := rfl
@[simp] theorem setFb_status (s : State) (f : Vector Bool 2048) : (s.setFb f).status = s.status := rfl
@[simp] theorem setFb_draws (s : State) (f : Vector Bool 2048) : (s.setFb f).draws = s.draws := rfl
@[simp] theorem setFb_reg (s : State) (f : Vector Bool 2048) (q : RegIdx) : (s.setFb f).reg q = s.reg q := rfl

@[simp] theorem setKeySlot_mem (s : State) (k : Fin 16) (b : Bool) : (s.setKeySlot k b).mem = s.mem := rfl
@[simp] theorem setKeySlot_pc (s : State) (k : Fin 16) (b : Bool) : (s.setKeySlot k b).pc = s.pc := rfl
@[simp] theorem setKeySlot_V (s : State) (k : Fin 16) (b : Bool) : (s.setKeySlot k b).V = s.V := rfl
@[simp] theorem setKeySlot_I (s : State) (k : Fin 16) (b : Bool) : (s.setKeySlot k b).I = s.I := rfl
@[simp] theorem setKeySlot_stack (s : State) (k : Fin 16) (b : Bool) : (s.setKeySlot k b).stack = s.stack := rfl
@[simp] theorem setKeySlot_sp (s : State) (k : Fin 16) (b : Bool) : (s.setKeySlot k b).sp = s.sp := rfl
@[simp] theorem setKeySlot_fb (s : State) (k : Fin 16) (b : Bool) : (s.setKeySlot k b).fb = s.fb := rfl
@[simp] theorem setKeySlot_keys (s : State) (k : Fin 16) (b : Bool) : (s.setKeySlot k b).keys = s.keys.set k b := rfl
@[simp] theorem setKeySlot_DT (s : State) (k : Fin 16) (b : Bool) : (s.setKeySlot k b).DT = s.DT := rfl
@[simp] theorem setKeySlot_ST (s : State) (k : Fin 16) (b : Bool) : (s.setKeySlot k b).ST = s.ST := rfl
@[simp] theorem setKeySlot_status (s : State) (k : Fin 16) (b : Bool) : (s.setKeySlot k b).status = s.status := rfl
@[simp] theorem setKeySlot_draws (s : State) (k : Fin 16) (b : Bool) : (s.setKeySlot k b).draws = s.draws := rfl
@[simp] theorem setKeySlot_reg (s : State) (k : Fin 16) (b : Bool) (q : RegIdx) : (s.setKeySlot k b).reg q = s.reg q := rfl

@[simp] theorem setDT_mem (s : State) (v : Byte) : (s.setDT v).mem = s.mem := rfl
@[simp] theorem setDT_pc (s : State) (v : Byte) : (s.setDT v).pc = s.pc := rfl
@[simp] theorem setDT_V (s : State) (v : Byte) : (s.setDT v).V = s.V := rfl
@[simp] theorem setDT_I (s : State) (v : Byte) : (s.setDT v).I = s.I := rfl
@[simp] theorem setDT_stack (s : State) (v : Byte) : (s.setDT v).stack = s.stack := rfl
@[simp] theorem setDT_sp (s : State) (v : Byte) : (s.setDT v).sp = s.sp := rfl
@[simp] theorem setDT_fb (s : State) (v : Byte) : (s.setDT v).fb = s.fb := rfl
@[simp] theorem setDT_keys (s : State) (v : Byte) : (s.setDT v).keys = s.keys := rfl
@[simp] theorem setDT_DT (s : State) (v : Byte) : (s.setDT v).DT = v := rfl
@[simp] theorem setDT_ST (s : State) (v : Byte) : (s.setDT v).ST = s.ST := rfl
@[simp] theorem setDT_status (s : State) (v : Byte) : (s.setDT v).status = s.status := rfl
@[simp] theorem setDT_draws (s : State) (v : Byte) : (s.setDT v).draws = s.draws := rfl
@[simp] theorem setDT_reg (s : State) (v : Byte) (q : RegIdx) : (s.setDT v).reg q = s.reg q := rfl

@[simp] theorem setST_mem (s : State) (v : Byte) : (s.setST v).mem = s.mem := rfl
@[simp] theorem setST_pc (s : State) (v : Byte) : (s.setST v).pc = s.pc := rfl
@[simp] theorem setST_V (s : State) (v : Byte) : (s.setST v).V = s.V := rfl
@[simp] theorem setST_I (s : State) (v : Byte) : (s.setST v).I = s.I := rfl
@[simp] theorem setST_stack (s : State) (v : Byte) : (s.setST v).stack = s.stack := rfl
@[simp] theorem setST_sp (s : State) (v : Byte) : (s.setST v).sp = s.sp := rfl
@[simp] theorem setST_fb (s : State) (v : Byte) : (s.setST v).fb = s.fb := rfl
@[simp] theorem setST_keys (s : State) (v : Byte) : (s.setST v).keys = s.keys := rfl
@[simp] theorem setST_DT (s : State) (v : Byte) : (s.setST v).DT = s.DT := rfl
@[simp] theorem setST_ST (s : State) (v : Byte) : (s.setST v).ST = v := rfl
@[simp] theorem setST_status (s : State) (v : Byte) : (s.setST v).status = s.status := rfl
@[simp] theorem setST_draws (s : State) (v : Byte) : (s.setST v).draws = s.draws := rfl
@[simp] theorem setST_reg (s : State) (v : Byte) (q : RegIdx) : (s.setST v).reg q = s.reg q := rfl

@[simp] theorem setStatus_mem (s : State) (st : Status) : (s.setStatus st).mem = s.mem := rfl
@[simp] theorem setStatus_pc (s : State) (st : Status) : (s.setStatus st).pc = s.pc := rfl
@[simp] theorem setStatus_V (s : State) (st : Status) : (s.setStatus st).V = s.V := rfl
@[simp] theorem setStatus_I (s : State) (st : Status) : (s.setStatus st).I = s.I := rfl
@[simp] theorem setStatus_stack (s : State) (st : Status) : (s.setStatus st).stack = s.stack := rfl
@[simp] theorem setStatus_sp (s : State) (st : Status) : (s.setStatus st).sp = s.sp := rfl
@[simp] theorem setStatus_fb (s : State) (st : Status) : (s.setStatus st).fb = s.fb := rfl
@[simp] theorem setStatus_keys (s : State) (st : Status) : (s.setStatus st).keys = s.keys := rfl
@[simp] theorem setStatus_DT (s : State) (st : Status) : (s.setStatus st).DT = s.DT := rfl
@[simp] theorem setStatus_ST (s : State) (st : Status) : (s.setStatus st).ST = s.ST := rfl
@[simp] theorem setStatus_status (s : State) (st : Status) : (s.setStatus st).status = st := rfl
@[simp] theorem setStatus_draws (s : State) (st : Status) : (s.setStatus st).draws = s.draws := rfl
@[simp] theorem setStatus_reg (s : State) (st : Status) (q : RegIdx) : (s.setStatus st).reg q = s.reg q := rfl

@[simp] theorem nextDraw_mem (s : State) : (s.nextDraw).mem = s.mem := rfl
@[simp] theorem nextDraw_pc (s : State) : (s.nextDraw).pc = s.pc := rfl
@[simp] theorem nextDraw_V (s : State) : (s.nextDraw).V = s.V := rfl
@[simp] theorem nextDraw_I (s : State) : (s.nextDraw).I = s.I := rfl
@[simp] theorem nextDraw_stack (s : State) : (s.nextDraw).stack = s.stack := rfl
@[simp] theorem nextDraw_sp (s : State) : (s.nextDraw).sp = s.sp := rfl
@[simp] theorem nextDraw_fb (s : State) : (s.nextDraw).fb = s.fb := rfl
@[simp] theorem nextDraw_keys (s : State) : (s.nextDraw).keys = s.keys := rfl
@[simp] theorem nextDraw_DT (s : State) : (s.nextDraw).DT = s.DT := rfl
@[simp] theorem nextDraw_ST (s : State) : (s.nextDraw).ST = s.ST := rfl
@[simp] theorem nextDraw_status (s : State) : (s.nextDraw).status = s.status := rfl
@[simp] theorem nextDraw_draws (s : State) : (s.nextDraw).draws = s.draws + 1 := rfl
@[simp] theorem nextDraw_reg (s : State) (q : RegIdx) : (s.nextDraw).reg q = s.reg q := rfl

@[simp] theorem skip_mem (s : State) : (s.skip).mem = s.mem := rfl
@[simp] theorem skip_pc (s : State) : (s.skip).pc = s.pc + 2 := rfl
@[simp] theorem skip_V (s : State) : (s.skip).V = s.V := rfl
@[simp] theorem skip_I (s : State) : (s.skip).I = s.I := rfl
@[simp] theorem skip_stack (s : State) : (s.skip).stack = s.stack := rfl
@[simp] theorem skip_sp (s : State) : (s.skip).sp = s.sp := rfl
@[simp] theorem skip_fb (s : State) : (s.skip).fb = s.fb := rfl
@[simp] theorem skip_keys (s : State) : (s.skip).keys = s.keys := rfl
@[simp] theorem skip_DT (s : State) : (s.skip).DT = s.DT := rfl
@[simp] theorem skip_ST (s : State) : (s.skip).ST = s.ST := rfl
@[simp] theorem skip_status (s : State) : (s.skip).status = s.status := rfl
@[simp] theorem skip_draws (s : State) : (s.skip).draws = s.draws := rfl
@[simp] theorem skip_reg (s : State) (q : RegIdx) : (s.skip).reg q = s.reg q := rfl

/-- What any register reads after one was written. -/
theorem setReg_reg (s : State) (r q : RegIdx) (v : Byte) : (s.setReg r v).reg q = if q = r then v else s.reg q := by
  by_cases h : q = r
  · subst h; simp [reg, setReg]
  · have : (r : Nat) ≠ q := fun e => h (Fin.ext e.symm)
    simp [reg, setReg, h, this]

@[simp] theorem setReg_reg_self (s : State) (r : RegIdx) (v : Byte) : (s.setReg r v).reg r = v := by simp [setReg_reg]

theorem setReg_reg_of_ne (s : State) {r q : RegIdx} (v : Byte) (h : q ≠ r) : (s.setReg r v).reg q = s.reg q := by
  simp [setReg_reg, h]

/-- What any register reads after a result and a flag were written, in that order (R98). -/
theorem setRegThenFlag_reg (s : State) (x q : RegIdx) (v : Byte) (f : Bool) :
    (s.setRegThenFlag x v f).reg q = if q = VF then flagByte f else if q = x then v else s.reg q := by
  simp [setRegThenFlag, setReg_reg]

@[simp] theorem setRegThenFlag_mem (s : State) (x : RegIdx) (v : Byte) (f : Bool) :
    (s.setRegThenFlag x v f).mem = s.mem := rfl
@[simp] theorem setRegThenFlag_pc (s : State) (x : RegIdx) (v : Byte) (f : Bool) :
    (s.setRegThenFlag x v f).pc = s.pc := rfl
@[simp] theorem setRegThenFlag_I (s : State) (x : RegIdx) (v : Byte) (f : Bool) :
    (s.setRegThenFlag x v f).I = s.I := rfl
@[simp] theorem setRegThenFlag_stack (s : State) (x : RegIdx) (v : Byte) (f : Bool) :
    (s.setRegThenFlag x v f).stack = s.stack := rfl
@[simp] theorem setRegThenFlag_sp (s : State) (x : RegIdx) (v : Byte) (f : Bool) :
    (s.setRegThenFlag x v f).sp = s.sp := rfl
@[simp] theorem setRegThenFlag_fb (s : State) (x : RegIdx) (v : Byte) (f : Bool) :
    (s.setRegThenFlag x v f).fb = s.fb := rfl
@[simp] theorem setRegThenFlag_keys (s : State) (x : RegIdx) (v : Byte) (f : Bool) :
    (s.setRegThenFlag x v f).keys = s.keys := rfl
@[simp] theorem setRegThenFlag_DT (s : State) (x : RegIdx) (v : Byte) (f : Bool) :
    (s.setRegThenFlag x v f).DT = s.DT := rfl
@[simp] theorem setRegThenFlag_ST (s : State) (x : RegIdx) (v : Byte) (f : Bool) :
    (s.setRegThenFlag x v f).ST = s.ST := rfl
@[simp] theorem setRegThenFlag_status (s : State) (x : RegIdx) (v : Byte) (f : Bool) :
    (s.setRegThenFlag x v f).status = s.status := rfl
@[simp] theorem setRegThenFlag_draws (s : State) (x : RegIdx) (v : Byte) (f : Bool) :
    (s.setRegThenFlag x v f).draws = s.draws := rfl

@[simp] theorem resetAll_mem (s : State) : s.resetAll.mem = reset.mem := rfl
@[simp] theorem resetAll_pc (s : State) : s.resetAll.pc = reset.pc := rfl
@[simp] theorem resetAll_V (s : State) : s.resetAll.V = reset.V := rfl
@[simp] theorem resetAll_I (s : State) : s.resetAll.I = reset.I := rfl
@[simp] theorem resetAll_stack (s : State) : s.resetAll.stack = reset.stack := rfl
@[simp] theorem resetAll_sp (s : State) : s.resetAll.sp = reset.sp := rfl
@[simp] theorem resetAll_fb (s : State) : s.resetAll.fb = reset.fb := rfl
@[simp] theorem resetAll_keys (s : State) : s.resetAll.keys = reset.keys := rfl
@[simp] theorem resetAll_DT (s : State) : s.resetAll.DT = reset.DT := rfl
@[simp] theorem resetAll_ST (s : State) : s.resetAll.ST = reset.ST := rfl
@[simp] theorem resetAll_status (s : State) : s.resetAll.status = reset.status := rfl
@[simp] theorem resetAll_draws (s : State) : s.resetAll.draws = s.draws := rfl

/-- A conditional skip changes the pc alone. -/
theorem skipIf_eq (s : State) (c : Bool) : s.skipIf c = s.setPc (if c then s.pc + 2 else s.pc) := by
  cases c <;> rfl

/-- Two states with the same fields are the same state. -/
theorem eq_of_fields {s t : State} (hmem : t.mem = s.mem) (hpc : t.pc = s.pc) (hV : ∀ r, t.reg r = s.reg r) (hI : t.I = s.I)
    (hstack : t.stack = s.stack) (hsp : t.sp = s.sp) (hfb : t.fb = s.fb) (hkeys : t.keys = s.keys) (hDT : t.DT = s.DT)
    (hST : t.ST = s.ST) (hstatus : t.status = s.status) (hdraws : t.draws = s.draws) : t = s := by
  have hV' : t.V = s.V := Vector.ext fun k hk => hV ⟨k, hk⟩
  cases s; cases t; simp_all

end Sys2Proof.Machine.State
end

