-- ==== Sys2Proof/Laws/Ops.lean ====
section
/-! SUPPORT. One lemma per shared operation that says what it can do: the stack, the fetch, the keypad scan, the register
lists, and taking a fault. -/

namespace Sys2Proof.Machine

namespace State

/-! ### The stack -/

/-- A push with a free entry: the entry at `sp` is written and `sp` counts one more (R26). -/
theorem push_of_lt (s : State) (w : Word) (h : s.sp.val < 16) :
    s.push w = some { s with stack := s.stack.set s.sp.val w, sp := ⟨s.sp.val + 1, by omega⟩ } := by
  simp [push, h]

/-- No push with 16 entries pushed (R26). -/
theorem push_of_full (s : State) (w : Word) (h : s.sp.val = 16) : s.push w = none := by simp [push, h]

/-- A pop with an entry pushed: `sp` counts one less, and the entry there is the value (R26). -/
theorem pop_of_pos (s : State) (h : 0 < s.sp.val) :
    s.pop = some (s.stack[s.sp.val - 1]'(by omega), { s with sp := ⟨s.sp.val - 1, by omega⟩ }) := by
  simp [pop, h]

/-- No pop with nothing pushed (R26). -/
theorem pop_of_empty (s : State) (h : s.sp.val = 0) : s.pop = none := by simp [pop, h]

/-! ### The fetch -/

/-- Everything the fetch answers (R75). -/
theorem fetch_eq (s : State) :
    s.fetch = if s.pc.toNat ≤ 4094 then .ok (wordOfBytes (s.mem.read s.pc.toNat) (s.mem.read (s.pc.toNat + 1)))
      else .error (max s.pc.toNat 4096) := by
  unfold fetch
  rw [memRead_eq, memRead_eq]
  by_cases h : s.pc.toNat ≤ 4094
  · simp [h, show s.pc.toNat < 4096 by omega, show s.pc.toNat + 1 < 4096 by omega]
  · by_cases h' : s.pc.toNat < 4096
    · simp [h, h', show ¬ s.pc.toNat + 1 < 4096 by omega]; omega
    · simp [h, h']; omega

/-! ### Taking a fault -/

theorem pick_mem (sel : Config.Location → Nat) (l : Config.Location) (before : State) (parts : List State) :
    pick sel l before parts ∈ before :: parts := by
  unfold pick
  have h : sel l % (before :: parts).length < (before :: parts).length := Nat.mod_lt _ (by simp)
  rw [List.getD_eq_getElem?_getD, List.getElem?_eq_getElem h]
  exact List.getElem_mem h

/-- What each address of a blended memory reads as: what some candidate reads there. -/
theorem blendMem_read (sel : Config.Location → Nat) (before : State) (parts : List State) (a : Nat) :
    ∃ c ∈ before :: parts, (blendMem sel before parts).read a = c.mem.read a := by
  unfold blendMem
  suffices h : ∀ (as : List Nat) (m : Memory), (∃ c ∈ before :: parts, m.read a = c.mem.read a) →
      ∃ c ∈ before :: parts,
        (as.foldl (fun m a => m.write a ((pick sel (.byte a) before parts).mem.read a)) m).read a = c.mem.read a from
    h _ _ ⟨before, by simp, rfl⟩
  intro as
  induction as with
  | nil => exact fun m h => h
  | cons b as ih =>
    intro m h
    apply ih
    rw [Memory.read_write]
    split
    · rename_i e; subst e
      exact ⟨_, pick_mem sel _ before parts, rfl⟩
    · exact h

theorem blendMem_wf (sel : Config.Location → Nat) (before : State) (parts : List State)
    (h : ∀ c ∈ before :: parts, c.mem.wf) : (blendMem sel before parts).wf := by
  unfold blendMem
  have ht : ∀ a ∈ touched before parts, a < 4096 := by
    intro a ha
    simp only [touched, List.mem_flatMap, List.mem_map] at ha
    obtain ⟨c, hc, d, hd, rfl⟩ := ha
    exact Memory.lt_of_listed (h c hc) hd
  generalize touched before parts = as at ht
  have hm := h before (by simp)
  revert hm ht
  generalize before.mem = m
  induction as generalizing m with
  | nil => exact fun _ h => h
  | cons a as ih => exact fun ht hm => ih _ (fun b hb => ht b (by simp [hb])) (Memory.wf_write hm (ht a (by simp)) _)

/-- Everything a step fault leaves: HALTED with the record (R137), and each location as in some candidate (R138). -/
structure RaisedFrom (record : FaultRecord) (before : State) (parts : List State) (t : State) : Prop where
  status : t.status = .halted record
  mem : ∀ a, ∃ c ∈ before :: parts, t.mem.read a = c.mem.read a
  pc : ∃ c ∈ before :: parts, t.pc = c.pc
  reg : ∀ r, ∃ c ∈ before :: parts, t.reg r = c.reg r
  I : ∃ c ∈ before :: parts, t.I = c.I
  entry : ∀ k : Fin 16, ∃ c ∈ before :: parts, t.stack[k] = c.stack[k]
  sp : ∃ c ∈ before :: parts, t.sp = c.sp
  cell : ∀ k : CellIdx, ∃ c ∈ before :: parts, t.fb[k] = c.fb[k]
  key : ∀ k : Fin 16, ∃ c ∈ before :: parts, t.keys[k] = c.keys[k]
  DT : ∃ c ∈ before :: parts, t.DT = c.DT
  ST : ∃ c ∈ before :: parts, t.ST = c.ST

/-- Whatever the free choice is, a raised fault leaves a state of this kind. -/
theorem raise_spec (record : FaultRecord) (before : State) (parts : List State) :
    RaisedFrom record before parts (raise record before parts) where
  status := rfl
  mem := blendMem_read _ before parts
  pc := ⟨_, pick_mem (Config.residue before.draws) .pc before parts, rfl⟩
  reg r := ⟨_, pick_mem (Config.residue before.draws) (.reg r) before parts, by simp [raise, blend, State.reg, setStatus, nextDraw]⟩
  I := ⟨_, pick_mem (Config.residue before.draws) .I before parts, rfl⟩
  entry k := ⟨_, pick_mem (Config.residue before.draws) (.entry k) before parts, by simp [raise, blend, setStatus, nextDraw]⟩
  sp := ⟨_, pick_mem (Config.residue before.draws) .sp before parts, rfl⟩
  cell k := ⟨_, pick_mem (Config.residue before.draws) (.cell k) before parts, by simp [raise, blend, setStatus, nextDraw]⟩
  key k := ⟨_, pick_mem (Config.residue before.draws) (.key k) before parts, by simp [raise, blend, setStatus, nextDraw]⟩
  DT := ⟨_, pick_mem (Config.residue before.draws) .DT before parts, rfl⟩
  ST := ⟨_, pick_mem (Config.residue before.draws) .ST before parts, rfl⟩

@[simp] theorem raise_status (r : FaultRecord) (b : State) (ps : List State) : (raise r b ps).status = .halted r := rfl

theorem raise_wf (r : FaultRecord) (b : State) (ps : List State) (h : ∀ c ∈ b :: ps, c.mem.wf) : (raise r b ps).mem.wf :=
  blendMem_wf _ b ps h

@[simp] theorem raiseFetch_status (s : State) (bad : Nat) : (s.raiseFetch bad).status =
    .halted { code := .memoryBounds, command := .step, pc0 := some s.pc, op := none, info := some bad } := rfl

@[simp] theorem raiseUnimplemented_status (s : State) (op : Word) : (s.raiseUnimplemented op).status =
    .halted { code := .unimplementedOpcode, command := .step, pc0 := some s.pc, op := some op, info := some op.toNat } :=
  rfl

@[simp] theorem raiseExec_status (s : State) (i : Instr) (code : FaultCode) (info : Option Nat) (ps : List State) :
    (s.raiseExec i code info ps).status =
      .halted { code := code, command := .step, pc0 := some (s.pc - 2), op := some (encode i), info := info } := rfl

@[simp] theorem raiseCommand_status (s : State) (code : FaultCode) (cmd : FaultCommand) (info : Nat) :
    (s.raiseCommand code cmd info).status =
      .halted { code := code, command := cmd, pc0 := none, op := none, info := some info } := rfl

@[simp] theorem finishAccess_none (s : State) (i : Instr) (done : State) (ps : List State) :
    s.finishAccess i none done ps = done := rfl

@[simp] theorem finishAccess_some (s : State) (i : Instr) (a : Nat) (done : State) (ps : List State) :
    s.finishAccess i (some a) done ps = s.raiseExec i .memoryBounds (some a) ps := rfl

/-! ### Register lists and the keypad scan -/

theorem regsUpTo_length (s : State) (x : RegIdx) : (s.regsUpTo x).length = x.val + 1 := by
  simp [regsUpTo]

theorem regsUpTo_getElem? (s : State) (x : RegIdx) (k : Nat) :
    (s.regsUpTo x)[k]? = if h : k ≤ x.val then some (s.reg ⟨k, by omega⟩) else none := by
  unfold regsUpTo
  split
  · rename_i h
    rw [List.getElem?_take_of_lt (by omega)]
    simp [reg, show k < 16 by omega]
  · rename_i h
    exact List.getElem?_take_eq_none (by omega)

/-- What each register reads after a list was written from `V[k]` on. -/
theorem setRegsFrom_reg (s : State) (k : Nat) (bs : List Byte) (r : RegIdx) :
    (s.setRegsFrom k bs).reg r = if k ≤ r.val then (bs[r.val - k]?).getD (s.reg r) else s.reg r := by
  induction bs generalizing s k with
  | nil => simp [setRegsFrom]
  | cons b bs ih =>
    unfold setRegsFrom
    split
    · rename_i hk
      rw [ih, setReg_reg]
      by_cases hr : r.val = k
      · have : r = ⟨k, hk⟩ := Fin.ext hr
        subst this; simp
      · have hne : r ≠ ⟨k, hk⟩ := fun e => hr (by simp [e])
        by_cases hlt : k + 1 ≤ r.val
        · have e : r.val - k = (r.val - (k + 1)) + 1 := by omega
          simp [hne, hlt, e, show k ≤ r.val by omega]
        · simp [hne, hlt, show ¬ k ≤ r.val by omega]
    · rename_i hk
      rw [if_neg (by omega)]

/-- Writing a list of registers changes `V` alone. -/
theorem setRegsFrom_eq (s : State) (k : Nat) (bs : List Byte) : s.setRegsFrom k bs = { s with V := (s.setRegsFrom k bs).V } := by
  induction bs generalizing s k with
  | nil => rfl
  | cons b bs ih =>
    unfold setRegsFrom
    split
    · rw [ih]; rfl
    · rfl

/-- The keypad scan finds the lowest pressed key (R123). -/
theorem firstKey_eq_some (s : State) (k : Fin 16) :
    s.firstKey = some k ↔ s.keys[k] = true ∧ ∀ j : Fin 16, j.val < k.val → s.keys[j] = false := by
  unfold firstKey
  rw [List.find?_eq_some_iff_getElem]
  constructor
  · rintro ⟨hk, i, hi, he, hlt⟩
    have hi' : i = k.val := by have := congrArg Fin.val he; simpa using this
    subst hi'
    refine ⟨hk, fun j hj => ?_⟩
    have := hlt j.val hj
    simpa using this
  · rintro ⟨hk, hlt⟩
    refine ⟨hk, k.val, by simp, by simp, fun j hj => ?_⟩
    have := hlt ⟨j, by omega⟩ hj
    simpa using this

/-- The keypad scan finds nothing exactly when no key is pressed. -/
theorem firstKey_eq_none (s : State) : s.firstKey = none ↔ ∀ k : Fin 16, s.keys[k] = false := by
  simp [firstKey]

end State

theorem index16_of_lt (v : Byte) (h : v.toNat < 16) : index16 v = some ⟨v.toNat, h⟩ := by simp [index16, h]

theorem index16_of_ge (v : Byte) (h : 16 ≤ v.toNat) : index16 v = none := by simp [index16, Nat.not_lt.2 h]

/-- No index exactly where the value is 16 or more. -/
theorem index16_eq_none (v : Byte) : index16 v = none ↔ 16 ≤ v.toNat := by
  unfold index16; split <;> simp <;> omega

/-- The index is the value. -/
theorem index16_eq_some (v : Byte) (k : Fin 16) : index16 v = some k ↔ v.toNat = k.val := by
  unfold index16
  split
  · simp [Fin.ext_iff]
  · simp; omega

end Sys2Proof.Machine
end

