-- ==== Sys2Proof/Laws/Draw.lean ====
section
/-! SUPPORT. What the framebuffer engine does to each cell (R114 to R118): one lemma per loop of DRAW. -/

namespace Sys2Proof.Machine

/-- A 1-bit of one sprite row, among its first `m` columns, lands on cell `k`. -/
def RowHits (X Y : Byte) (row : Nat) (b : Byte) (m : Nat) (k : CellIdx) : Prop :=
  ∃ col, col < m ∧ b.getLsbD (7 - col) = true ∧ spriteCell X Y row col = k

/-- A 1-bit of the sprite rows `bs`, the first of them drawn as row `row`, lands on cell `k`. -/
def Hits (X Y : Byte) (row : Nat) (bs : List Byte) (k : CellIdx) : Prop :=
  ∃ j b, bs[j]? = some b ∧ RowHits X Y (row + j) b 8 k

/-- What a canvas becomes when the cells of `hit` are inverted: every cell, and the collision flag (R114, R118). -/
def Inverts (hit : CellIdx → Prop) (c d : Canvas) : Prop :=
  (∀ k : CellIdx, (hit k → d.1[k] = !c.1[k]) ∧ (¬ hit k → d.1[k] = c.1[k])) ∧
  (d.2 = true ↔ c.2 = true ∨ ∃ k : CellIdx, hit k ∧ c.1[k] = true)

/-- Sprite positions of one DRAW map to distinct cells (R116). -/
theorem spriteCell_inj {X Y : Byte} {r r' c c' : Nat} (hr : r < r' + 32) (hr' : r' < r + 32) (hc : c < 8) (hc' : c' < 8)
    (h : spriteCell X Y r c = spriteCell X Y r' c') : r = r' ∧ c = c' := by
  have := congrArg Fin.val h
  simp only [spriteCell] at this
  omega

theorem inverts_refl (c : Canvas) : Inverts (fun _ => False) c c := by simp [Inverts]

theorem inverts_congr {p q : CellIdx → Prop} (h : ∀ k, p k ↔ q k) {c d : Canvas} (hp : Inverts p c d) : Inverts q c d := by
  have : p = q := funext fun k => propext (h k)
  exact this ▸ hp

theorem inverts_toggle (k : CellIdx) (c : Canvas) : Inverts (fun j => j = k) c (toggleCell k c) := by
  refine ⟨fun j => ⟨?_, fun hj => ?_⟩, ?_⟩
  · rintro rfl; simp [toggleCell]
  · have : k.val ≠ j.val := fun e => hj (Fin.ext e.symm)
    simp [toggleCell, this]
  · simp [toggleCell]

/-- Inverting disjoint sets of cells one after the other inverts their union. -/
theorem inverts_trans {p q : CellIdx → Prop} (hpq : ∀ k, p k → ¬ q k) {c d e : Canvas} (h1 : Inverts p c d)
    (h2 : Inverts q d e) : Inverts (fun k => p k ∨ q k) c e := by
  obtain ⟨a1, b1⟩ := h1
  obtain ⟨a2, b2⟩ := h2
  refine ⟨fun k => ⟨?_, fun h => ?_⟩, ?_⟩
  · rintro (h | h)
    · rw [(a2 k).2 (hpq k h), (a1 k).1 h]
    · rw [(a2 k).1 h, (a1 k).2 fun hp => hpq k hp h]
  · rw [(a2 k).2 fun hq => h (.inr hq), (a1 k).2 fun hp => h (.inl hp)]
  · rw [b2, b1]
    constructor
    · rintro ((h | ⟨k, hk, hl⟩) | ⟨k, hk, hl⟩)
      · exact .inl h
      · exact .inr ⟨k, .inl hk, hl⟩
      · exact .inr ⟨k, .inr hk, by rw [← (a1 k).2 fun hp => hpq k hp hk]; exact hl⟩
    · rintro (h | ⟨k, hk | hk, hl⟩)
      · exact .inl (.inl h)
      · exact .inl (.inr ⟨k, hk, hl⟩)
      · exact .inr ⟨k, hk, by rw [(a1 k).2 fun hp => hpq k hp hk]; exact hl⟩

/-- One sprite position inverts its cell where its bit is 1. -/
theorem inverts_drawCol (X Y : Byte) (row : Nat) (b : Byte) (c : Canvas) (col : Nat) :
    Inverts (fun k => b.getLsbD (7 - col) = true ∧ spriteCell X Y row col = k) c (drawCol X Y row b c col) := by
  unfold drawCol
  split
  · rename_i h
    exact inverts_congr (fun k => by simp [h, eq_comm]) (inverts_toggle _ c)
  · rename_i h
    exact inverts_congr (fun k => by simp [h]) (inverts_refl c)

/-- The first `m` columns of a row invert the cells their 1-bits land on. -/
theorem inverts_columns (X Y : Byte) (row : Nat) (b : Byte) (c : Canvas) (m : Nat) (hm : m ≤ 8) :
    Inverts (RowHits X Y row b m) c ((List.range m).foldl (drawCol X Y row b) c) := by
  induction m with
  | zero => exact inverts_congr (fun k => by simp [RowHits]) (inverts_refl c)
  | succ m ih =>
    rw [List.range_succ, List.foldl_append, List.foldl_cons, List.foldl_nil]
    refine inverts_congr (fun k => ?_) (inverts_trans ?_ (ih (by omega)) (inverts_drawCol X Y row b _ m))
    · constructor
      · rintro (⟨col, hc, h⟩ | h)
        · exact ⟨col, by omega, h⟩
        · exact ⟨m, by omega, h⟩
      · rintro ⟨col, hc, h⟩
        rcases Nat.lt_succ_iff_lt_or_eq.1 hc with hc | rfl
        · exact .inl ⟨col, hc, h⟩
        · exact .inr h
    · rintro k ⟨col, hc, -, rfl⟩ ⟨-, e⟩
      have := (spriteCell_inj (by omega) (by omega) (by omega) (by omega) e).2
      omega

/-- The rows of one DRAW invert exactly the cells their 1-bits land on, and record a collision exactly where such a cell was
lit before (R114, R116). -/
theorem inverts_drawRows (X Y : Byte) (row : Nat) (bs : List Byte) (c : Canvas) (hlen : bs.length ≤ 32) :
    Inverts (Hits X Y row bs) c (drawRows X Y row bs c) := by
  induction bs generalizing row c with
  | nil => exact inverts_congr (fun k => by simp [Hits]) (inverts_refl c)
  | cons b bs ih =>
    simp only [List.length_cons] at hlen
    refine inverts_congr (fun k => ?_)
      (inverts_trans ?_ (inverts_columns X Y row b c 8 (Nat.le_refl 8)) (ih (row + 1) (drawRow X Y row b c) (by omega)))
    · constructor
      · rintro (h | ⟨j, b', hj, h⟩)
        · exact ⟨0, b, rfl, h⟩
        · exact ⟨j + 1, b', by simpa using hj, by rw [← Nat.add_assoc, Nat.add_right_comm]; exact h⟩
      · rintro ⟨j, b', hj, h⟩
        cases j with
        | zero => cases hj; exact .inl h
        | succ j => exact .inr ⟨j, b', by simpa using hj, by rw [Nat.add_right_comm]; exact h⟩
    · rintro k ⟨col, hc, -, rfl⟩ ⟨j, b', hj, col', hc', -, e⟩
      have hj' : j < bs.length := (List.getElem?_eq_some_iff.1 hj).1
      have := (spriteCell_inj (by omega) (by omega) hc' hc e).1
      omega

end Sys2Proof.Machine
end

