-- ==== Sys2Proof/Laws/Encoding.lean ====
section
/-! SUPPORT. What the fields of a word are (R56): of any word, as numbers, and of the words the encoder builds. -/

namespace Sys2Proof

theorem wordOfNibbles_toNat (a b c d : BitVec 4) :
    (wordOfNibbles a b c d).toNat = a.toNat * 4096 + b.toNat * 256 + c.toNat * 16 + d.toNat := by
  have hb := b.isLt; have hc := c.isLt; have hd := d.isLt
  simp only [wordOfNibbles, BitVec.toNat_append]
  rw [← Nat.shiftLeft_add_eq_or_of_lt hb, ← Nat.shiftLeft_add_eq_or_of_lt hc, ← Nat.shiftLeft_add_eq_or_of_lt hd]
  simp only [Nat.shiftLeft_eq]
  omega

theorem wordNnn_toNat (a : BitVec 4) (n : Addr12) : (wordNnn a n).toNat = a.toNat * 4096 + n.toNat := by
  have hn := n.isLt
  simp only [wordNnn, BitVec.toNat_append]
  rw [← Nat.shiftLeft_add_eq_or_of_lt hn]
  simp only [Nat.shiftLeft_eq]

theorem wordXnn_toNat (a : BitVec 4) (x : RegIdx) (n : Byte) :
    (wordXnn a x n).toNat = a.toNat * 4096 + x.val * 256 + n.toNat := by
  have hn := n.isLt; have hx := (nibbleOfReg x).isLt
  simp only [wordXnn, BitVec.toNat_append]
  rw [← Nat.shiftLeft_add_eq_or_of_lt hx, ← Nat.shiftLeft_add_eq_or_of_lt hn]
  simp only [Nat.shiftLeft_eq, nibbleOfReg, BitVec.toNat_ofFin]
  omega

theorem wordOfBytes_toNat (hi lo : Byte) : (wordOfBytes hi lo).toNat = hi.toNat * 256 + lo.toNat := by
  have hl := lo.isLt
  simp only [wordOfBytes, BitVec.toNat_append]
  rw [← Nat.shiftLeft_add_eq_or_of_lt hl]
  simp only [Nat.shiftLeft_eq]

theorem fieldD1_toNat (w : Word) : (fieldD1 w).toNat = w.toNat / 4096 := by
  have := w.isLt
  simp [fieldD1, BitVec.extractLsb'_toNat, Nat.shiftRight_eq_div_pow]; omega

theorem fieldX_toNat (w : Word) : (fieldX w).toNat = w.toNat / 256 % 16 := by
  simp [fieldX, BitVec.extractLsb'_toNat, Nat.shiftRight_eq_div_pow]

theorem fieldY_toNat (w : Word) : (fieldY w).toNat = w.toNat / 16 % 16 := by
  simp [fieldY, BitVec.extractLsb'_toNat, Nat.shiftRight_eq_div_pow]

theorem fieldN_toNat (w : Word) : (fieldN w).toNat = w.toNat % 16 := by
  simp [fieldN, BitVec.extractLsb'_toNat]

theorem fieldNn_toNat (w : Word) : (fieldNn w).toNat = w.toNat % 256 := by
  simp [fieldNn, BitVec.extractLsb'_toNat]

theorem fieldNnn_toNat (w : Word) : (fieldNnn w).toNat = w.toNat % 4096 := by
  simp [fieldNnn, BitVec.extractLsb'_toNat]

theorem highByte_toNat (w : Word) : (highByte w).toNat = w.toNat / 256 := by
  have := w.isLt
  simp [highByte, BitVec.extractLsb'_toNat, Nat.shiftRight_eq_div_pow]; omega

theorem lowByte_toNat (w : Word) : (lowByte w).toNat = w.toNat % 256 := by
  simp [lowByte, BitVec.extractLsb'_toNat]

theorem regOfNibble_val (b : BitVec 4) : (regOfNibble b).val = b.toNat := rfl

theorem nibbleOfReg_toNat (x : RegIdx) : (nibbleOfReg x).toNat = x.val := rfl

@[simp] theorem regOfNibble_nibbleOfReg (x : RegIdx) : regOfNibble (nibbleOfReg x) = x := rfl

@[simp] theorem nibbleOfReg_regOfNibble (b : BitVec 4) : nibbleOfReg (regOfNibble b) = b := rfl

/-- The two stored bytes of a word make the word (R40). -/
@[simp] theorem wordOfBytes_of_word (w : Word) : wordOfBytes (highByte w) (lowByte w) = w := by
  apply BitVec.eq_of_toNat_eq
  rw [wordOfBytes_toNat, highByte_toNat, lowByte_toNat]
  omega

@[simp] theorem fieldD1_wordOfNibbles (a b c d : BitVec 4) : fieldD1 (wordOfNibbles a b c d) = a := by
  apply BitVec.eq_of_toNat_eq; rw [fieldD1_toNat, wordOfNibbles_toNat]; omega

@[simp] theorem fieldX_wordOfNibbles (a b c d : BitVec 4) : fieldX (wordOfNibbles a b c d) = b := by
  apply BitVec.eq_of_toNat_eq; rw [fieldX_toNat, wordOfNibbles_toNat]; omega

@[simp] theorem fieldY_wordOfNibbles (a b c d : BitVec 4) : fieldY (wordOfNibbles a b c d) = c := by
  apply BitVec.eq_of_toNat_eq; rw [fieldY_toNat, wordOfNibbles_toNat]; omega

@[simp] theorem fieldN_wordOfNibbles (a b c d : BitVec 4) : fieldN (wordOfNibbles a b c d) = d := by
  apply BitVec.eq_of_toNat_eq; rw [fieldN_toNat, wordOfNibbles_toNat]; omega

@[simp] theorem fieldD1_wordNnn (a : BitVec 4) (n : Addr12) : fieldD1 (wordNnn a n) = a := by
  apply BitVec.eq_of_toNat_eq; rw [fieldD1_toNat, wordNnn_toNat]; omega

@[simp] theorem fieldNnn_wordNnn (a : BitVec 4) (n : Addr12) : fieldNnn (wordNnn a n) = n := by
  apply BitVec.eq_of_toNat_eq; rw [fieldNnn_toNat, wordNnn_toNat]; omega

@[simp] theorem fieldD1_wordXnn (a : BitVec 4) (x : RegIdx) (n : Byte) : fieldD1 (wordXnn a x n) = a := by
  apply BitVec.eq_of_toNat_eq; rw [fieldD1_toNat, wordXnn_toNat]; omega

@[simp] theorem fieldX_wordXnn (a : BitVec 4) (x : RegIdx) (n : Byte) : fieldX (wordXnn a x n) = nibbleOfReg x := by
  apply BitVec.eq_of_toNat_eq; rw [fieldX_toNat, wordXnn_toNat, nibbleOfReg_toNat]; omega

@[simp] theorem fieldNn_wordXnn (a : BitVec 4) (x : RegIdx) (n : Byte) : fieldNn (wordXnn a x n) = n := by
  apply BitVec.eq_of_toNat_eq; rw [fieldNn_toNat, wordXnn_toNat]; omega

/-- A word is its four nibbles (R56). -/
theorem eq_wordOfNibbles (w : Word) : w = wordOfNibbles (fieldD1 w) (fieldX w) (fieldY w) (fieldN w) := by
  apply BitVec.eq_of_toNat_eq
  rw [wordOfNibbles_toNat, fieldD1_toNat, fieldX_toNat, fieldY_toNat, fieldN_toNat]
  have := w.isLt
  omega

/-- The fields of a masked word are the masked fields. -/
theorem fieldD1_and (w m : Word) : fieldD1 (w &&& m) = fieldD1 w &&& fieldD1 m := BitVec.extractLsb'_and

theorem fieldN_and (w m : Word) : fieldN (w &&& m) = fieldN w &&& fieldN m := BitVec.extractLsb'_and

theorem fieldNn_and (w m : Word) : fieldNn (w &&& m) = fieldNn w &&& fieldNn m := BitVec.extractLsb'_and

theorem fieldNnn_and (w m : Word) : fieldNnn (w &&& m) = fieldNnn w &&& fieldNnn m := BitVec.extractLsb'_and

end Sys2Proof
end

