-- ==== Sys2Proof/Laws/Step.lean ====
section
/-! SUPPORT. What a step can do, said once: nothing while HALTED, a fault of the fetch, a fault of the decoder, or the execute
phase of the decoded instruction. -/

namespace Sys2Proof.Machine

variable {run : Instr → State → Host.Outcome State Fault Refusal} {s : State}

theorem fetch_of_inRange (h : s.pc.toNat ≤ 4094) : s.fetch = .ok (s.wordAt s.pc.toNat) := by
  rw [State.fetch_eq, if_pos h]; rfl

theorem cycle_halted {r : FaultRecord} (h : s.status = .halted r) : cycle run s = .next s := by simp [cycle, h]

theorem cycle_outOfRange (h : s.status = .ready) (hp : ¬ s.pc.toNat ≤ 4094) :
    cycle run s = .next (s.raiseFetch (max s.pc.toNat 4096)) := by
  simp [cycle, h, State.fetch_eq, hp]

theorem cycle_illegal {e : DecodeError} (h : s.status = .ready) (hp : s.pc.toNat ≤ 4094)
    (hd : decodeWord (s.wordAt s.pc.toNat) = .error e) :
    cycle run s = .next (s.raiseUnimplemented (s.wordAt s.pc.toNat)) := by
  simp [cycle, h, fetch_of_inRange hp, hd]

theorem cycle_instr {i : Instr} (h : s.NextInstr i) : cycle run s = run i s.skip := by
  simp [cycle, h.ready, fetch_of_inRange h.inRange, h.decodes]

/-- Every cycle is one of the four: for the execute phase, the instruction at the pc. -/
theorem cycle_cases (run : Instr → State → Host.Outcome State Fault Refusal) (s : State) :
    (∃ r, s.status = .halted r ∧ cycle run s = .next s) ∨
    (s.status = .ready ∧ 4095 ≤ s.pc.toNat ∧ cycle run s = .next (s.raiseFetch (max s.pc.toNat 4096))) ∨
    (s.status = .ready ∧ s.pc.toNat ≤ 4094 ∧ (∃ e, decodeWord (s.wordAt s.pc.toNat) = .error e) ∧
      cycle run s = .next (s.raiseUnimplemented (s.wordAt s.pc.toNat))) ∨
    ∃ i, s.NextInstr i ∧ cycle run s = run i s.skip := by
  cases hs : s.status with
  | halted r => exact .inl ⟨r, rfl, cycle_halted hs⟩
  | ready =>
    by_cases hp : s.pc.toNat ≤ 4094
    · cases hd : decodeWord (s.wordAt s.pc.toNat) with
      | error e => exact .inr (.inr (.inl ⟨rfl, hp, ⟨e, rfl⟩, cycle_illegal hs hp hd⟩))
      | ok i => exact .inr (.inr (.inr ⟨i, ⟨hs, hp, hd⟩, cycle_instr ⟨hs, hp, hd⟩⟩))
    · exact .inr (.inl ⟨rfl, by omega, cycle_outOfRange hs hp⟩)

end Sys2Proof.Machine
end

