-- ==== Sys2Proof/Laws/Exec.lean ====
section
/-! SUPPORT. What the execute phase of each instruction that may fault does, one lemma a path, and what every execute phase
ends in. The other instructions' meanings are one line each, so `exec i s` unfolds to the state by `rfl`. -/

namespace Sys2Proof.Machine

open State

variable {s t : State}

/-- The state DRAW leaves after `m` rows: the framebuffer with them drawn, and VF their collision (R114). -/
def State.drawn (s : State) (x y : RegIdx) (m : Nat) : State :=
  let canvas := drawRows (s.reg x) (s.reg y) 0 ((List.range m).map fun k => s.mem.read (s.I.toNat + k)) (s.fb, false)
  (s.setFb canvas.1).setReg VF (flagByte canvas.2)

@[simp] theorem State.drawn_reg (x y : RegIdx) (m : Nat) (r : RegIdx) (h : r ≠ VF) : (s.drawn x y m).reg r = s.reg r := by
  simp [drawn, setReg_reg, h]

theorem State.drawn_eq (s : State) (x y : RegIdx) (m : Nat) :
    s.drawn x y m = { s with fb := (s.drawn x y m).fb, V := (s.drawn x y m).V } := rfl

/-! ### Return stack -/

theorem exec_call_ok (nnn : Addr12) (h : s.sp.val < 16) : exec (.call nnn) s =
    .next ({ s with stack := s.stack.set s.sp.val s.pc, sp := ⟨s.sp.val + 1, by omega⟩ }.setPc (zextNnn nnn)) := by
  rw [exec, execCall, push_of_lt _ _ h]

theorem exec_call_full (nnn : Addr12) (h : s.sp.val = 16) : exec (.call nnn) s =
    .next (s.raiseExec (.call nnn) .stackOverflow none [s.setPc (zextNnn nnn)]) := by
  rw [exec, execCall, push_of_full _ _ h]

theorem exec_ret_ok (h : 0 < s.sp.val) : exec .ret s =
    .next ({ s with sp := ⟨s.sp.val - 1, by omega⟩ }.setPc (s.stack[s.sp.val - 1]'(by omega))) := by
  rw [exec, execRet, pop_of_pos _ h]

theorem exec_ret_empty (h : s.sp.val = 0) : exec .ret s = .next (s.raiseExec .ret .stackUnderflow none []) := by
  rw [exec, execRet, pop_of_empty _ h]

/-! ### Keypad and font index -/

theorem exec_skipKey_ok (x : RegIdx) (k : Fin 16) (h : (s.reg x).toNat = k.val) :
    exec (.skipKey x) s = .next (s.skipIf s.keys[k]) := by
  rw [exec, execSkipKey, (index16_eq_some _ _).2 h]

theorem exec_skipKey_bad (x : RegIdx) (h : 16 ≤ (s.reg x).toNat) : exec (.skipKey x) s =
    .next (s.raiseExec (.skipKey x) .keyIndexBounds (some (s.reg x).toNat) [s.skip]) := by
  rw [exec, execSkipKey, (index16_eq_none _).2 h]

theorem exec_skipNokey_ok (x : RegIdx) (k : Fin 16) (h : (s.reg x).toNat = k.val) :
    exec (.skipNokey x) s = .next (s.skipIf (!s.keys[k])) := by
  rw [exec, execSkipNokey, (index16_eq_some _ _).2 h]

theorem exec_skipNokey_bad (x : RegIdx) (h : 16 ≤ (s.reg x).toNat) : exec (.skipNokey x) s =
    .next (s.raiseExec (.skipNokey x) .keyIndexBounds (some (s.reg x).toNat) [s.skip]) := by
  rw [exec, execSkipNokey, (index16_eq_none _).2 h]

theorem exec_fontAddr_ok (x : RegIdx) (h : (s.reg x).toNat < 16) :
    exec (.fontAddr x) s = .next (s.setI (BitVec.ofNat 16 ((s.reg x).toNat * 5))) := by
  rw [exec, execFontAddr, index16_of_lt _ h]

theorem exec_fontAddr_bad (x : RegIdx) (h : 16 ≤ (s.reg x).toNat) : exec (.fontAddr x) s =
    .next (s.raiseExec (.fontAddr x) .fontIndexBounds (some (s.reg x).toNat) [s.setI (zextByte (s.reg x) * 5)]) := by
  rw [exec, execFontAddr, (index16_eq_none _).2 h]

theorem exec_waitKey_none (x : RegIdx) (h : ∀ k : Fin 16, s.keys[k] = false) :
    exec (.waitKey x) s = .next (s.setPc (s.pc - 2)) := by
  rw [exec, execWaitKey, (firstKey_eq_none _).2 h]

theorem exec_waitKey_some (x : RegIdx) (k : Fin 16) (hk : s.keys[k] = true)
    (h : ∀ j : Fin 16, j.val < k.val → s.keys[j] = false) :
    exec (.waitKey x) s = .next (s.setReg x (BitVec.ofNat 8 k.val)) := by
  rw [exec, execWaitKey, (firstKey_eq_some _ _).2 ⟨hk, h⟩]

/-! ### Memory -/

theorem exec_draw_ok (x y : RegIdx) (n : Nat) (h : n = 0 ∨ s.I.toNat + n ≤ 4096) :
    exec (.draw x y n) s = .next (s.drawn x y n) := by
  have hm : min n (4096 - s.I.toNat) = n := by omega
  simp only [exec, execDraw, loadBytes_eq, memOperand, (firstBad_eq_none _ _).2 h, hm, finishAccess_none, drawn]

theorem exec_draw_bad (x y : RegIdx) (n : Nat) (h0 : n ≠ 0) (h : 4096 < s.I.toNat + n) : exec (.draw x y n) s =
    .next (s.raiseExec (.draw x y n) .memoryBounds (some (max s.I.toNat 4096))
      [s.drawn x y (min n (4096 - s.I.toNat)), s.setReg VF (flagByte false)]) := by
  simp only [exec, execDraw, loadBytes_eq, memOperand, (firstBad_eq_some _ _ _).2 ⟨h0, h, rfl⟩, finishAccess_some, drawn]

theorem exec_bcd_ok (x : RegIdx) (h : s.I.toNat + 2 < 4096) :
    exec (.bcd x) s = .next (s.setMem (storeBytes s.mem s.I.toNat (bcdDigits (s.reg x))).1) := by
  have hn : firstBad s.I.toNat (bcdDigits (s.reg x)).length = none := by
    rw [firstBad_eq_none]; right; simp [bcdDigits]; omega
  simp only [exec, execBcd, storeBytes_bad, memOperand, hn, finishAccess]

theorem exec_bcd_bad (x : RegIdx) (h : 4096 ≤ s.I.toNat + 2) : exec (.bcd x) s =
    .next (s.raiseExec (.bcd x) .memoryBounds (some (max s.I.toNat 4096))
      [s.setMem (storeBytes s.mem s.I.toNat (bcdDigits (s.reg x))).1]) := by
  have hn : firstBad s.I.toNat (bcdDigits (s.reg x)).length = some (max s.I.toNat 4096) := by
    rw [firstBad_eq_some]; simp [bcdDigits]; omega
  simp only [exec, execBcd, storeBytes_bad, memOperand, hn, finishAccess]

theorem exec_storeRegs_ok (x : RegIdx) (h : s.I.toNat + x.val < 4096) :
    exec (.storeRegs x) s = .next (s.setMem (storeBytes s.mem s.I.toNat (s.regsUpTo x)).1) := by
  have hn : firstBad s.I.toNat (s.regsUpTo x).length = none := by
    rw [firstBad_eq_none, regsUpTo_length]; omega
  simp only [exec, execStoreRegs, storeBytes_bad, memOperand, hn, finishAccess]

theorem exec_storeRegs_bad (x : RegIdx) (h : 4096 ≤ s.I.toNat + x.val) : exec (.storeRegs x) s =
    .next (s.raiseExec (.storeRegs x) .memoryBounds (some (max s.I.toNat 4096))
      [s.setMem (storeBytes s.mem s.I.toNat (s.regsUpTo x)).1]) := by
  have hn : firstBad s.I.toNat (s.regsUpTo x).length = some (max s.I.toNat 4096) := by
    rw [firstBad_eq_some, regsUpTo_length]; omega
  simp only [exec, execStoreRegs, storeBytes_bad, memOperand, hn, finishAccess]

theorem exec_loadRegs_ok (x : RegIdx) (h : s.I.toNat + x.val < 4096) : exec (.loadRegs x) s =
    .next (s.setRegsFrom 0 ((List.range (x.val + 1)).map fun k => s.mem.read (s.I.toNat + k))) := by
  have hn : firstBad s.I.toNat (x.val + 1) = none := by rw [firstBad_eq_none]; omega
  have hm : min (x.val + 1) (4096 - s.I.toNat) = x.val + 1 := by omega
  simp only [exec, execLoadRegs, loadBytes_eq, memOperand, hn, hm, finishAccess]

theorem exec_loadRegs_bad (x : RegIdx) (h : 4096 ≤ s.I.toNat + x.val) : ∃ part : State, part.mem = s.mem ∧
    exec (.loadRegs x) s = .next (s.raiseExec (.loadRegs x) .memoryBounds (some (max s.I.toNat 4096)) [part]) := by
  have hn : firstBad s.I.toNat (x.val + 1) = some (max s.I.toNat 4096) := by rw [firstBad_eq_some]; omega
  refine ⟨s.setRegsFrom 0 (loadBytes s.mem s.I.toNat (x.val + 1)).1, by rw [setRegsFrom_eq], ?_⟩
  simp only [exec, execLoadRegs, loadBytes_eq, memOperand, hn, finishAccess]

/-! ### What every execute phase ends in -/

/-- How a step fault's code and info go together, as `FaultRecord.wf` has it. -/
def RaisedBy (s : State) (i : Instr) (t : State) : Prop :=
  ∃ code info parts, t = s.raiseExec i code info parts ∧
    FaultRecord.wf { code := code, command := .step, pc0 := some (s.pc - 2), op := some (encode i), info := info } = true ∧
    (s.mem.wf → ∀ c ∈ parts, c.mem.wf)

theorem raiseExec_wf (i : Instr) (code : FaultCode) (info : Option Nat) (parts : List State) (h : s.mem.wf)
    (hp : ∀ c ∈ parts, c.mem.wf) : (s.raiseExec i code info parts).mem.wf := by
  apply raise_wf
  intro c hc
  rcases List.mem_cons.1 hc with rfl | hc
  · exact h
  · rcases List.mem_cons.1 hc with rfl | hc
    · exact h
    · exact hp c hc

theorem raisedBy_wf {i : Instr} (h : RaisedBy s i t) (hm : s.mem.wf) : t.mem.wf := by
  obtain ⟨code, info, parts, rfl, -, hp⟩ := h
  exact raiseExec_wf i code info parts hm (hp hm)

/-- The execute phase either keeps the status latch, and then keeps the canonical form of memory, or raises a fault. -/
theorem exec_ends (i : Instr) (h : exec i s = .next t) : (t.status = s.status ∧ (s.mem.wf → t.mem.wf)) ∨ RaisedBy s i t := by
  have keep : ∀ {u : State}, (Host.Outcome.next u : Host.Outcome State Fault Refusal) = .next t → u.status = s.status →
      u.mem = s.mem → (t.status = s.status ∧ (s.mem.wf → t.mem.wf)) ∨ RaisedBy s i t := by
    intro u hu hs hm; injection hu with hu; subst hu; exact .inl ⟨hs, fun h => hm ▸ h⟩
  have bounds : ∀ {code : FaultCode} {info : Option Nat} {parts : List State},
      (Host.Outcome.next (s.raiseExec i code info parts) : Host.Outcome State Fault Refusal) = .next t →
      FaultRecord.wf { code := code, command := .step, pc0 := some (s.pc - 2), op := some (encode i), info := info } = true →
      (s.mem.wf → ∀ c ∈ parts, c.mem.wf) → (t.status = s.status ∧ (s.mem.wf → t.mem.wf)) ∨ RaisedBy s i t := by
    intro code info parts hu hw hp; injection hu with hu; subst hu; exact .inr ⟨code, info, parts, rfl, hw, hp⟩
  cases i with
  | ret =>
    rcases Nat.eq_zero_or_pos s.sp.val with h0 | h0
    · rw [exec_ret_empty h0] at h; exact bounds h rfl (by simp)
    · rw [exec_ret_ok h0] at h; exact keep h rfl rfl
  | call nnn =>
    rcases Nat.lt_or_ge s.sp.val 16 with h0 | h0
    · rw [exec_call_ok nnn h0] at h; exact keep h rfl rfl
    · rw [exec_call_full nnn (by omega)] at h; exact bounds h rfl (by simp)
  | skipEqImm | skipNeqImm | skipEqReg | skipNeqReg => exact keep h (by rw [skipIf_eq]; rfl) (by rw [skipIf_eq]; rfl)
  | skipKey x =>
    rcases Nat.lt_or_ge (s.reg x).toNat 16 with h0 | h0
    · rw [exec_skipKey_ok x ⟨_, h0⟩ rfl] at h; exact keep h (by rw [skipIf_eq]; rfl) (by rw [skipIf_eq]; rfl)
    · rw [exec_skipKey_bad x h0] at h; exact bounds h (by simpa [FaultRecord.wf] using h0) (by simp)
  | skipNokey x =>
    rcases Nat.lt_or_ge (s.reg x).toNat 16 with h0 | h0
    · rw [exec_skipNokey_ok x ⟨_, h0⟩ rfl] at h; exact keep h (by rw [skipIf_eq]; rfl) (by rw [skipIf_eq]; rfl)
    · rw [exec_skipNokey_bad x h0] at h; exact bounds h (by simpa [FaultRecord.wf] using h0) (by simp)
  | fontAddr x =>
    rcases Nat.lt_or_ge (s.reg x).toNat 16 with h0 | h0
    · rw [exec_fontAddr_ok x h0] at h; exact keep h rfl rfl
    · rw [exec_fontAddr_bad x h0] at h; exact bounds h (by simpa [FaultRecord.wf] using h0) (by simp)
  | waitKey x =>
    rw [exec, execWaitKey] at h
    split at h <;> exact keep h rfl rfl
  | draw x y n =>
    by_cases h0 : n = 0 ∨ s.I.toNat + n ≤ 4096
    · rw [exec_draw_ok x y n h0] at h; exact keep h rfl rfl
    · rw [exec_draw_bad x y n (by omega) (by omega)] at h
      refine bounds h (by simp [FaultRecord.wf]) fun hm c hc => ?_
      have : c.mem = s.mem := by
        rcases List.mem_cons.1 hc with rfl | hc
        · rfl
        · rw [List.mem_singleton.1 hc]; rfl
      rwa [this]
  | bcd x =>
    rcases Nat.lt_or_ge (s.I.toNat + 2) 4096 with h0 | h0
    · rw [exec_bcd_ok x h0] at h; injection h with h; subst h; exact .inl ⟨rfl, fun hm => storeBytes_wf hm _ _⟩
    · rw [exec_bcd_bad x h0] at h
      exact bounds h (by simp [FaultRecord.wf]) (by simpa using fun hm => storeBytes_wf hm _ _)
  | storeRegs x =>
    rcases Nat.lt_or_ge (s.I.toNat + x.val) 4096 with h0 | h0
    · rw [exec_storeRegs_ok x h0] at h; injection h with h; subst h; exact .inl ⟨rfl, fun hm => storeBytes_wf hm _ _⟩
    · rw [exec_storeRegs_bad x h0] at h
      exact bounds h (by simp [FaultRecord.wf]) (by simpa using fun hm => storeBytes_wf hm _ _)
  | loadRegs x =>
    rcases Nat.lt_or_ge (s.I.toNat + x.val) 4096 with h0 | h0
    · rw [exec_loadRegs_ok x h0] at h; exact keep h (by rw [setRegsFrom_eq]) (by rw [setRegsFrom_eq])
    · obtain ⟨part, hp, e⟩ := exec_loadRegs_bad x h0
      rw [e] at h; exact bounds h (by simp [FaultRecord.wf]) (by simp [hp])
  | _ => exact keep h rfl rfl

end Sys2Proof.Machine
end

