-- ==== Sys2Proof/Laws/Frame.lean ====
section
/-! SUPPORT. The frame of each update, as `SameBut` and `SameRegsBut` say it. -/

namespace Sys2Proof.Machine.State

variable (s : State)

theorem sameBut_refl (fields : List Field) : SameBut fields s s := by constructor <;> intros <;> rfl

theorem sameBut_setPc (w : Word) : SameBut [.pc] s (s.setPc w) := by constructor <;> simp

theorem sameBut_setReg (r : RegIdx) (v : Byte) : SameBut [.V] s (s.setReg r v) := by constructor <;> simp

theorem sameBut_setRegThenFlag (r : RegIdx) (v : Byte) (f : Bool) : SameBut [.V] s (s.setRegThenFlag r v f) := by
  constructor <;> simp

theorem sameBut_setRegsFrom (k : Nat) (bs : List Byte) : SameBut [.V] s (s.setRegsFrom k bs) := by
  rw [setRegsFrom_eq]; constructor <;> simp

theorem sameBut_setI (w : Word) : SameBut [.I] s (s.setI w) := by constructor <;> simp

theorem sameBut_setMem (m : Memory) : SameBut [.mem] s (s.setMem m) := by constructor <;> simp

theorem sameBut_setFb (fb : Vector Bool 2048) : SameBut [.fb] s (s.setFb fb) := by constructor <;> simp

theorem sameBut_setKeySlot (k : Fin 16) (b : Bool) : SameBut [.keys] s (s.setKeySlot k b) := by constructor <;> simp

theorem sameBut_setDT (v : Byte) : SameBut [.DT] s (s.setDT v) := by constructor <;> simp

theorem sameBut_setST (v : Byte) : SameBut [.ST] s (s.setST v) := by constructor <;> simp

theorem sameBut_setStatus (st : Status) : SameBut [.status] s (s.setStatus st) := by constructor <;> simp

theorem sameBut_drawn (x y : RegIdx) (n : Nat) : SameBut [.fb, .V] s (s.drawn x y n) := by
  rw [drawn_eq]; constructor <;> simp

theorem sameRegsBut_setReg (r : RegIdx) (v : Byte) : SameRegsBut [r] s (s.setReg r v) := by
  intro q hq; simp at hq; simp [setReg_reg, hq]

theorem sameRegsBut_setRegThenFlag (r : RegIdx) (v : Byte) (f : Bool) :
    SameRegsBut [r, VF] s (s.setRegThenFlag r v f) := by
  intro q hq; simp at hq; simp [setRegThenFlag_reg, hq]

theorem sameRegsBut_drawn (x y : RegIdx) (n : Nat) : SameRegsBut [VF] s (s.drawn x y n) := by
  intro q hq; exact drawn_reg x y n q (by simpa using hq)

end Sys2Proof.Machine.State
end

