-- ==== Sys2Proof/Laws/PerInstr.lean ====
section
/-! SUPPORT. The family EncodeMatchesRow (LAWS.json): the encoder writes a word of the instruction's own row of R61, proved
one instruction at a time. -/

namespace Sys2Proof.Laws.EncodeMatchesRow

/-- A well-formed instruction's word selects its row of R61. -/
def Statement (i : Instr) : Prop := i.wellFormed = true → selects (encode i) (tableRow i) = true

/-! One lemma a format of R57: only the nibbles the mask fixes are compared. -/

theorem nnn_row (d : BitVec 4) (nnn : Addr12) : selects (wordNnn d nnn) (wordNnn d 0, 0xF000) = true := by
  have h : wordNnn d nnn &&& (BitVec.allOnes 4 ++ (0 : BitVec 12)) = wordNnn d 0 := by
    rw [wordNnn, BitVec.and_append]; simp only [BitVec.and_allOnes]; simp [wordNnn]
  exact beq_iff_eq.2 h

theorem xnn_row (d : BitVec 4) (x : RegIdx) (nn : Byte) : selects (wordXnn d x nn) (wordXnn d 0 0, 0xF000) = true := by
  have h : wordXnn d x nn &&& (BitVec.allOnes 4 ++ (0 : BitVec 4) ++ (0 : BitVec 8)) = wordXnn d 0 0 := by
    rw [wordXnn, BitVec.and_append, BitVec.and_append]; simp only [BitVec.and_allOnes]; simp [wordXnn, nibbleOfReg]
  exact beq_iff_eq.2 h

theorem minor_row (d : BitVec 4) (x : RegIdx) (nn : Byte) : selects (wordXnn d x nn) (wordXnn d 0 nn, 0xF0FF) = true := by
  have h : wordXnn d x nn &&& (BitVec.allOnes 4 ++ (0 : BitVec 4) ++ BitVec.allOnes 8) = wordXnn d 0 nn := by
    rw [wordXnn, BitVec.and_append, BitVec.and_append]; simp only [BitVec.and_allOnes]; simp [wordXnn, nibbleOfReg]
  exact beq_iff_eq.2 h

theorem nibbles_row (d a b m : BitVec 4) : selects (wordOfNibbles d a b m) (wordOfNibbles d 0 0 m, 0xF00F) = true := by
  have h : wordOfNibbles d a b m &&& (BitVec.allOnes 4 ++ (0 : BitVec 4) ++ (0 : BitVec 4) ++ BitVec.allOnes 4) =
      wordOfNibbles d 0 0 m := by
    rw [wordOfNibbles, BitVec.and_append, BitVec.and_append, BitVec.and_append]; simp only [BitVec.and_allOnes]; simp [wordOfNibbles]
  exact beq_iff_eq.2 h

theorem draw_row (a b m : BitVec 4) : selects (wordOfNibbles 0xD a b m) (0xD000, 0xF000) = true := by
  have h : wordOfNibbles 0xD a b m &&& (BitVec.allOnes 4 ++ (0 : BitVec 4) ++ (0 : BitVec 4) ++ (0 : BitVec 4)) = 0xD000 := by
    rw [wordOfNibbles, BitVec.and_append, BitVec.and_append, BitVec.and_append]; simp only [BitVec.and_allOnes]; simp
  exact beq_iff_eq.2 h

/-! The instructions, in the order of R61. -/

theorem nop : Statement .nop := fun _ => rfl
theorem cls : Statement .cls := fun _ => rfl
theorem ret : Statement .ret := fun _ => rfl
theorem jmp (nnn : Addr12) : Statement (.jmp nnn) := fun _ => nnn_row _ nnn
theorem call (nnn : Addr12) : Statement (.call nnn) := fun _ => nnn_row _ nnn
theorem skipEqImm (x : RegIdx) (nn : Byte) : Statement (.skipEqImm x nn) := fun _ => xnn_row _ x nn
theorem skipNeqImm (x : RegIdx) (nn : Byte) : Statement (.skipNeqImm x nn) := fun _ => xnn_row _ x nn
theorem skipEqReg (x y : RegIdx) : Statement (.skipEqReg x y) := fun _ => nibbles_row _ _ _ _
theorem loadImm (x : RegIdx) (nn : Byte) : Statement (.loadImm x nn) := fun _ => xnn_row _ x nn
theorem addImm (x : RegIdx) (nn : Byte) : Statement (.addImm x nn) := fun _ => xnn_row _ x nn
theorem mov (x y : RegIdx) : Statement (.mov x y) := fun _ => nibbles_row _ _ _ _
theorem or (x y : RegIdx) : Statement (.or x y) := fun _ => nibbles_row _ _ _ _
theorem and (x y : RegIdx) : Statement (.and x y) := fun _ => nibbles_row _ _ _ _
theorem xor (x y : RegIdx) : Statement (.xor x y) := fun _ => nibbles_row _ _ _ _
theorem add (x y : RegIdx) : Statement (.add x y) := fun _ => nibbles_row _ _ _ _
theorem sub (x y : RegIdx) : Statement (.sub x y) := fun _ => nibbles_row _ _ _ _
theorem shr (x : RegIdx) : Statement (.shr x) := fun _ => nibbles_row _ _ _ _
theorem subn (x y : RegIdx) : Statement (.subn x y) := fun _ => nibbles_row _ _ _ _
theorem shl (x : RegIdx) : Statement (.shl x) := fun _ => nibbles_row _ _ _ _
theorem skipNeqReg (x y : RegIdx) : Statement (.skipNeqReg x y) := fun _ => nibbles_row _ _ _ _
theorem loadI (nnn : Addr12) : Statement (.loadI nnn) := fun _ => nnn_row _ nnn
theorem jmpOffset (nnn : Addr12) : Statement (.jmpOffset nnn) := fun _ => nnn_row _ nnn
theorem rand (x : RegIdx) (nn : Byte) : Statement (.rand x nn) := fun _ => xnn_row _ x nn
theorem draw (x y : RegIdx) (n : Nat) : Statement (.draw x y n) := fun _ => draw_row _ _ _
theorem skipKey (x : RegIdx) : Statement (.skipKey x) := fun _ => minor_row _ x _
theorem skipNokey (x : RegIdx) : Statement (.skipNokey x) := fun _ => minor_row _ x _
theorem loadDt (x : RegIdx) : Statement (.loadDt x) := fun _ => minor_row _ x _
theorem waitKey (x : RegIdx) : Statement (.waitKey x) := fun _ => minor_row _ x _
theorem setDt (x : RegIdx) : Statement (.setDt x) := fun _ => minor_row _ x _
theorem setSt (x : RegIdx) : Statement (.setSt x) := fun _ => minor_row _ x _
theorem addI (x : RegIdx) : Statement (.addI x) := fun _ => minor_row _ x _
theorem fontAddr (x : RegIdx) : Statement (.fontAddr x) := fun _ => minor_row _ x _
theorem bcd (x : RegIdx) : Statement (.bcd x) := fun _ => minor_row _ x _
theorem storeRegs (x : RegIdx) : Statement (.storeRegs x) := fun _ => minor_row _ x _
theorem loadRegs (x : RegIdx) : Statement (.loadRegs x) := fun _ => minor_row _ x _

end Sys2Proof.Laws.EncodeMatchesRow
end

