-- ==== Sys2Proof/Tests/Slice0.lean ====
section
/-! SUPPORT. The model's own tests. Expected results are the vectors of spec/95_test_vectors.md (their numbers stand in the
comments: E2 is a worked example, A6 a row of part 2), or the words of R61. Then one witness a statement: a state and
operands that meet its hypotheses, clause by clause. -/

namespace Sys2Proof.Tests

open Sys2Proof.Machine Sys2Proof.Machine.State

/-! ### Well-formedness -/

theorem test_wellFormed_draw : (Instr.draw 0 0 15).wellFormed = true ∧ (Instr.draw 0 0 16).wellFormed = false := by decide

/-- A word of an ill-formed DRAW does not decode to it. -/
theorem test_illFormed_word : decodeWord (encode (.draw 1 2 16)) = .ok (.draw 1 2 0) := by rfl

/-! ### Decoding: one word a row of R61, written out from its match and the fields of R56 -/

theorem test_decode_flow : decodeWord 0x0000 = .ok .nop ∧ decodeWord 0x00E0 = .ok .cls ∧ decodeWord 0x00EE = .ok .ret ∧
    decodeWord 0x1ABC = .ok (.jmp 0xABC) ∧ decodeWord 0x2300 = .ok (.call 0x300) ∧
    decodeWord 0xA123 = .ok (.loadI 0x123) ∧ decodeWord 0xBFFF = .ok (.jmpOffset 0xFFF) := by
  refine ⟨?_, ?_, ?_, ?_, ?_, ?_, ?_⟩ <;> rfl

theorem test_decode_skips : decodeWord 0x3A42 = .ok (.skipEqImm 0xA 0x42) ∧ decodeWord 0x4A42 = .ok (.skipNeqImm 0xA 0x42) ∧
    decodeWord 0x5120 = .ok (.skipEqReg 1 2) ∧ decodeWord 0x9120 = .ok (.skipNeqReg 1 2) ∧
    decodeWord 0xE29E = .ok (.skipKey 2) ∧ decodeWord 0xE2A1 = .ok (.skipNokey 2) := by
  refine ⟨?_, ?_, ?_, ?_, ?_, ?_⟩ <;> rfl

theorem test_decode_immediate : decodeWord 0x6A5C = .ok (.loadImm 0xA 0x5C) ∧ decodeWord 0x7AFF = .ok (.addImm 0xA 0xFF) ∧
    decodeWord 0xC30F = .ok (.rand 3 0x0F) ∧ decodeWord 0xD345 = .ok (.draw 3 4 5) := by
  refine ⟨?_, ?_, ?_, ?_⟩ <;> rfl

theorem test_decode_alu : decodeWord 0x8120 = .ok (.mov 1 2) ∧ decodeWord 0x8121 = .ok (.or 1 2) ∧
    decodeWord 0x8122 = .ok (.and 1 2) ∧ decodeWord 0x8123 = .ok (.xor 1 2) ∧ decodeWord 0x8124 = .ok (.add 1 2) ∧
    decodeWord 0x8125 = .ok (.sub 1 2) ∧ decodeWord 0x81A6 = .ok (.shr 1) ∧ decodeWord 0x8127 = .ok (.subn 1 2) ∧
    decodeWord 0x812E = .ok (.shl 1) := by
  refine ⟨?_, ?_, ?_, ?_, ?_, ?_, ?_, ?_, ?_⟩ <;> rfl

theorem test_decode_minor : decodeWord 0xF507 = .ok (.loadDt 5) ∧ decodeWord 0xF30A = .ok (.waitKey 3) ∧
    decodeWord 0xF515 = .ok (.setDt 5) ∧ decodeWord 0xF018 = .ok (.setSt 0) ∧ decodeWord 0xF41E = .ok (.addI 4) ∧
    decodeWord 0xF029 = .ok (.fontAddr 0) ∧ decodeWord 0xF033 = .ok (.bcd 0) ∧ decodeWord 0xF255 = .ok (.storeRegs 2) ∧
    decodeWord 0xF265 = .ok (.loadRegs 2) := by
  refine ⟨?_, ?_, ?_, ?_, ?_, ?_, ?_, ?_, ?_⟩ <;> rfl

/-- U1 to U5. -/
theorem test_decode_illegal : ([0x0123, 0x00E1, 0x00FF, 0x5121, 0x9121, 0x800F, 0x8128, 0xE000, 0xE09F, 0xF000, 0xF0FF,
    0xF01F].all fun w => match decodeWord w with | .error (.unimplemented v) => v == w | _ => false) = true := by
  decide +kernel

theorem test_decode_bytes : decodeBytes [0xD3, 0x45, 0x77] = .ok (.draw 3 4 5, [0x77]) ∧
    decodeBytes [0xD3] = .error .truncated := by
  refine ⟨?_, ?_⟩ <;> rfl

theorem test_decode_tableWord : decodeTableWord 16 0xD345 = some (.draw 3 4 5) ∧ decodeTableWord 16 0x5121 = none := by decide

/-- The decoded words encode back to themselves, but for the y nibble of SHR. -/
theorem test_encode : encode (.sub 1 2) = 0x8125 ∧ encode (.draw 3 4 5) = 0xD345 ∧ encode (.shr 1) = 0x8106 ∧
    encode (.loadRegs 2) = 0xF265 ∧ encode (.jmpOffset 0xFFF) = 0xBFFF := by decide

theorem test_opcodeTable_has_35_rows : opcodeTable.length = 35 := by decide

/-! ### One step -/

/-- The reset state with an instruction word at 0x200, and bytes elsewhere. -/
def start (w : Word) : State := State.reset.placeWord 0x200 w

def withBytes (s : State) (a : Nat) (bs : List Byte) : State := s.setMem (writeBytes s.mem a bs)

def bytesAt (a n : Nat) (t : State) : List Byte := (List.range n).map fun k => t.mem.read (a + k)

/-- What one step leaves, looked at through `f`. -/
def view {α : Type} (f : State → α) (s : State) : Option α :=
  match step s with
  | .next t => some (f t)
  | _ => none

def pcOf (t : State) : Word := t.pc

def pcAnd (x : RegIdx) (t : State) : Word × Byte × Byte := (t.pc, t.reg x, t.reg VF)

def halt (code : FaultCode) (pc0 : Word) (op : Option Word) (info : Option Nat) : Option Status :=
  some (.halted { code := code, command := .step, pc0 := some pc0, op := op, info := info })

/-- F1. -/
theorem test_nop : view (pcAnd 3) ((start 0x0000).setReg 3 7) = some (0x202, 7, 0) := by decide
/-- F2. -/
theorem test_cls : view (fun t => (t.pc, t.fb[2047])) ((start 0x00E0).setFb (Vector.replicate 2048 true)) =
    some (0x202, false) := by decide +kernel
/-- F4. -/
theorem test_ret_full : view (fun t => (t.pc, t.sp))
    { start 0x00EE with sp := 16, stack := (Vector.replicate 16 (0 : Word)).set 15 0x31E } = some (0x31E, 15) := by decide
/-- F5. -/
theorem test_ret_empty : view status (start 0x00EE) = halt .stackUnderflow 0x200 (some 0x00EE) none := by decide
/-- F6, F7. -/
theorem test_jmp : view pcOf (start 0x1ABC) = some 0xABC ∧ step (start 0x1200) = .next (start 0x1200) := ⟨by decide, by rfl⟩
/-- F9. -/
theorem test_call_last : view (fun t => (t.pc, t.sp, t.stack[15])) { start 0x2300 with sp := 15 } =
    some (0x300, 16, 0x202) := by decide
/-- F10. -/
theorem test_call_full : view status { start 0x2300 with sp := 16 } = halt .stackOverflow 0x200 (some 0x2300) none := by decide

/-- S1, S2. -/
theorem test_skipEqImm : view pcOf ((start 0x3A42).setReg 0xA 0x42) = some 0x204 ∧
    view pcOf ((start 0x3A42).setReg 0xA 0x43) = some 0x202 := by decide
/-- S3, S4. -/
theorem test_skipNeqImm : view pcOf ((start 0x4A42).setReg 0xA 0x43) = some 0x204 ∧
    view pcOf ((start 0x4A42).setReg 0xA 0x42) = some 0x202 := by decide
/-- S5, S6. -/
theorem test_skipEqReg : view pcOf (((start 0x5120).setReg 1 9).setReg 2 9) = some 0x204 ∧
    view pcOf (((start 0x5120).setReg 1 9).setReg 2 8) = some 0x202 := by decide
/-- S8, S9. -/
theorem test_skipNeqReg : view pcOf (((start 0x9120).setReg 1 9).setReg 2 8) = some 0x204 ∧
    view pcOf (((start 0x9120).setReg 1 9).setReg 2 9) = some 0x202 := by decide
/-- S11. -/
theorem test_illegal : view status (start 0x5121) = halt .unimplementedOpcode 0x200 (some 0x5121) (some 0x5121) := by decide

/-- M1. -/
theorem test_loadImm : view (pcAnd 0xA) (start 0x6A5C) = some (0x202, 0x5C, 0) := by decide
/-- M2, M3. -/
theorem test_addImm : view (pcAnd 0xA) (((start 0x7AFF).setReg 0xA 1).setReg VF 0x55) = some (0x202, 0, 0x55) ∧
    view (pcAnd VF) ((start 0x7F01).setReg VF 0xFF) = some (0x202, 0, 0) := by decide

/-- V1, V2 and VF at the start of a word at 0x200. -/
def alu (w : Word) (a b f : Byte) : State := (((start w).setReg 1 a).setReg 2 b).setReg VF f

/-- A1 to A4. -/
theorem test_mov : view (pcAnd 1) (alu 0x8120 0x12 0x34 9) = some (0x202, 0x34, 9) := by decide
theorem test_or : view (pcAnd 1) (alu 0x8121 0xF0 0x0F 7) = some (0x202, 0xFF, 7) := by decide
theorem test_and : view (pcAnd 1) (alu 0x8122 0xF0 0x3C 7) = some (0x202, 0x30, 7) := by decide
theorem test_xor : view (pcAnd 1) (alu 0x8123 0xF0 0x3C 7) = some (0x202, 0xCC, 7) := by decide
/-- A6, A8. -/
theorem test_add : view (pcAnd 1) (alu 0x8124 0xFF 0x01 0) = some (0x202, 0x00, 1) ∧
    view (pcAnd 1) (alu 0x8124 0x7F 0x80 1) = some (0x202, 0xFF, 0) := by decide
/-- A10, A11. -/
theorem test_add_flag_operand : view (pcAnd 1) (alu 0x8F14 0x02 0 0xFF) = some (0x202, 0x02, 1) ∧
    view (pcAnd 1) (alu 0x81F4 0x10 0 0x01) = some (0x202, 0x11, 0) := by decide
/-- A13, A14. -/
theorem test_sub : view (pcAnd 1) (alu 0x8125 3 5 1) = some (0x202, 0xFE, 0) ∧
    view (pcAnd 1) (alu 0x8125 5 5 0) = some (0x202, 0x00, 1) := by decide
/-- A16. -/
theorem test_sub_into_flag : view (pcAnd VF) (alu 0x8F15 0x20 0 0x10) = some (0x202, 0, 0) := by decide
/-- A18, A19. -/
theorem test_shr : view (pcAnd 1) (alu 0x8106 0xFE 0 1) = some (0x202, 0x7F, 0) ∧
    view (pcAnd 1) (alu 0x81A6 0x01 0 0) = some (0x202, 0x00, 1) := by decide
/-- A21, A22. -/
theorem test_subn : view (pcAnd 1) (alu 0x8127 3 5 0) = some (0x202, 0x02, 1) ∧
    view (pcAnd 1) (alu 0x8127 5 3 1) = some (0x202, 0xFE, 0) := by decide
/-- A24, A27. -/
theorem test_shl : view (pcAnd 1) (alu 0x810E 0x81 0 0) = some (0x202, 0x02, 1) ∧
    view (pcAnd VF) (alu 0x8F0E 0 0 0x41) = some (0x202, 0, 0) := by decide

/-- J1. -/
theorem test_loadI : view (fun t => (t.pc, t.I)) (start 0xA123) = some (0x202, 0x123) := by decide
/-- J3. -/
theorem test_jmpOffset : view pcOf ((start 0xBFFF).setReg 0 0xFF) = some 0x10FE := by decide
/-- J4: the step command with the input byte 0xAB. -/
theorem test_rand : (match stepWith 0xAB (start 0xC30F) with | .next t => some (pcAnd 3 t) | _ => none) =
    some (0x202, 0x0B, 0) := by decide

/-- D2. -/
theorem test_draw_wraps : view (fun t => (t.fb[2047], t.fb[1984], t.fb[0], t.reg VF))
    ((((withBytes (start 0xD011) 0x300 [0xC0]).setI 0x300).setReg 0 63).setReg 1 31) =
    some (true, true, false, 0) := by decide +kernel
/-- D8. -/
theorem test_draw_flag_operand : view (fun t => (t.fb[130], t.reg VF))
    (((withBytes (start 0xDFF1) 0x300 [0x80]).setI 0x300).setReg VF 2 |>.setFb (Vector.replicate 2048 true)) =
    some (false, 1) := by decide +kernel

/-- K1, K2. -/
theorem test_skipKey : view pcOf (((start 0xE29E).setReg 2 10).setKeySlot 10 true) = some 0x204 ∧
    view pcOf ((start 0xE29E).setReg 2 10) = some 0x202 := by decide
/-- K4, K5. -/
theorem test_skipNokey : view pcOf ((start 0xE2A1).setReg 2 10) = some 0x204 ∧
    view pcOf (((start 0xE2A1).setReg 2 10).setKeySlot 10 true) = some 0x202 := by decide
/-- K3, K6. -/
theorem test_key_out_of_range :
    view status ((start 0xE29E).setReg 2 0x10) = halt .keyIndexBounds 0x200 (some 0xE29E) (some 0x10) ∧
    view status ((start 0xE2A1).setReg 2 0xFF) = halt .keyIndexBounds 0x200 (some 0xE2A1) (some 0xFF) := by decide
/-- K7. -/
theorem test_waitKey_waits : view (pcAnd 3) ((start 0xF30A).setReg 3 0x99) = some (0x200, 0x99, 0) := by decide
/-- K9. -/
theorem test_waitKey_lowest : view (pcAnd 3) ((((start 0xF30A).setKeySlot 3 true).setKeySlot 9 true).setKeySlot 15 true) =
    some (0x202, 3, 0) := by decide

/-- T1 to T3. -/
theorem test_loadDt : view (fun t => (t.pc, t.reg 5, t.DT)) ((start 0xF507).setDT 0x3C) = some (0x202, 0x3C, 0x3C) := by decide
theorem test_setDt : view (fun t => (t.pc, t.DT, t.ST)) ((start 0xF515).setReg 5 0x3C) = some (0x202, 60, 0) := by decide
theorem test_setSt : view (fun t => (t.pc, t.DT, t.ST)) ((start 0xF018).setReg 0 2) = some (0x202, 0, 2) := by decide

/-- X2, X3. -/
theorem test_addI : view (fun t => (t.pc, t.I)) (((start 0xF01E).setI 0xFFF).setReg 0 1) = some (0x202, 0x1000) ∧
    view (fun t => (t.pc, t.I)) (((start 0xF01E).setI 0xFFFF).setReg 0 2) = some (0x202, 0x0001) := by decide
/-- X5. -/
theorem test_fontAddr : view (fun t => (t.pc, t.I)) ((start 0xF029).setReg 0 0x0F) = some (0x202, 0x04B) := by decide
/-- X6. -/
theorem test_fontAddr_out_of_range :
    view status ((start 0xF029).setReg 0 0x10) = halt .fontIndexBounds 0x200 (some 0xF029) (some 0x10) := by decide
/-- X15. -/
theorem test_bcd : view (bytesAt 0xFFD 3) (((start 0xF033).setReg 0 123).setI 0xFFD) = some [1, 2, 3] := by decide
/-- X16. -/
theorem test_bcd_past_memory : view status (((start 0xF033).setReg 0 1).setI 0xFFE) =
    halt .memoryBounds 0x200 (some 0xF033) (some 0x1000) := by decide
/-- X17. -/
theorem test_storeRegs : view (fun t => (bytesAt 0x300 4 t, t.I))
    (((((start 0xF255).setReg 0 1).setReg 1 2).setReg 2 3).setReg 3 4 |>.setI 0x300) = some ([1, 2, 3, 0], 0x300) := by decide
/-- X20. -/
theorem test_storeRegs_past_memory : view status ((start 0xFF55).setI 0xFF1) =
    halt .memoryBounds 0x200 (some 0xFF55) (some 0x1000) := by decide
/-- X21. -/
theorem test_loadRegs : view (fun t => (t.reg 0, t.reg 1, t.reg 2, t.reg 3, t.I))
    ((withBytes (start 0xF265) 0x300 [1, 2, 3, 4]).setI 0x300) = some (1, 2, 3, 0, 0x300) := by decide
/-- X23. -/
theorem test_loadRegs_past_memory : view status ((start 0xF165).setI 0xFFF) =
    halt .memoryBounds 0x200 (some 0xF165) (some 0x1000) := by decide

/-! ### Host commands, and the two functions the host calls -/

/-- What one command leaves, looked at through `f`, and its result. -/
def viewCommand {α : Type} (f : State → α) (c : Command) (s : State) : Option (α × Reply) :=
  match c.perform s with
  | .next (t, r) => some (f t, r)
  | _ => none

/-- T4, T5. -/
theorem test_tick : viewCommand (fun t => (t.DT, t.ST)) .tick (State.reset.setDT 1) = some ((0, 0), .ok) ∧
    viewCommand (fun t => (t.DT, t.ST)) .tick State.reset = some ((0, 0), .ok) := by decide +kernel
/-- H3. -/
theorem test_load_keeps_higher_bytes : (match Command.performAll [.load [1, 2, 3, 4], .load [9]] State.reset with
    | .next t => some (bytesAt 0x200 4 t, t.pc) | _ => none) = some ([9, 2, 3, 4], 0x200) := by decide +kernel
/-- H4. -/
theorem test_setKey_out_of_range : viewCommand (fun t => t.keys[0]) (.setKey 16 true) State.reset = some (false, .fault
    { code := .keyIndexBounds, command := .setKey, pc0 := none, op := none, info := some 16 }) := by decide +kernel
/-- H5. -/
theorem test_fetch_last_word : view pcOf ((withBytes State.reset 0xFFE [0x12, 0x00]).setPc 0xFFE) = some 0x200 := by decide
/-- H6, H7. -/
theorem test_fetch_past_memory : view status (State.reset.setPc 0xFFF) = halt .memoryBounds 0xFFF none (some 0x1000) ∧
    view status (State.reset.setPc 0x1000) = halt .memoryBounds 0x1000 none (some 0x1000) := by decide

theorem test_withFetchWord : view (pcAnd 0xA) (State.reset.withFetchWord 16 0x6A5C) = some (0x202, 0x5C, 0) ∧
    view (pcAnd 0xA) ((State.reset.setPc 0xFFFF).withFetchWord 16 0x6A5C) = some (0x202, 0x5C, 0) := by decide

/-- R133's codes. -/
theorem test_fault_numbers : [FaultCode.loadOverflow, .unimplementedOpcode, .memoryBounds, .keyIndexBounds, .fontIndexBounds,
    .stackOverflow, .stackUnderflow].map FaultCode.number = [1, 2, 3, 4, 5, 6, 7] := by decide

/-! ### Witnesses: the hypotheses of the statements are met, clause by clause

A witness has the name of its statement. Statements without hypotheses need none; where a statement only splits on a value
(a register, `I`, `sp`), its witness gives a value for each side of each bound. -/

theorem next_of_view {α : Type} {f : State → α} {s : State} {v : α} (h : view f s = some v) :
    ∃ t, step s = .next t ∧ f t = v := by
  unfold view at h
  split at h
  · next t ht => exact ⟨t, ht, by injection h⟩
  · cases h

/-- A halted state. -/
def halted : State := State.reset.setStatus (.halted
  { code := .keyIndexBounds, command := .setKey, pc0 := none, op := none, info := some 16 })

/-- A word at an address, with the pc there. -/
def startAt (a : Nat) (w : Word) : State := (State.reset.placeWord a w).setPc (BitVec.ofNat 16 a)

theorem witness_CreateAndResetLeaveResetValues : (Command.create = .create ∨ Command.create = .reset) ∧
    (Command.reset = .create ∨ Command.reset = .reset) := by decide

theorem witness_DecodeOfEncodeIsInstruction : (Instr.draw 15 15 15).wellFormed = true := by decide

theorem witness_DecodeSelectsExactlyOneTableRow : decodeWord 0xFF65 = .ok (.loadRegs 15) ∧
    (0xF065, 0xF0FF) ∈ opcodeTable ∧ selects 0xFF65 (0xF065, 0xF0FF) = true := ⟨by rfl, by decide, by decide⟩

theorem witness_EncodeOfDecodeIsWord : decodeWord 0x81F6 = .ok (.shr 1) ∧ decodeWord 0x81FE = .ok (.shl 1) ∧
    decodeWord 0x81F7 = .ok (.subn 1 15) ∧ (∀ x, Instr.subn 1 15 ≠ .shr x ∧ Instr.subn 1 15 ≠ .shl x) :=
  ⟨by rfl, by rfl, by rfl, by simp⟩

theorem witness_IllegalWordsAreExactly : decodeWord 0x0FFF = .error (.unimplemented 0x0FFF) ∧
    (0x0FFF : Word).toNat / 0x1000 = 0x0 ∧ (0x0FFF : Word).toNat ∉ [0x0000, 0x00E0, 0x00EE] := ⟨by rfl, by decide, by decide⟩

/-- The last word of memory, 0xFFE. -/
theorem witness_StepRunsDecodedInstruction : (startAt 4094 0x6A5C).status = .ready ∧ (startAt 4094 0x6A5C).pc.toNat ≤ 4094 ∧
    decodeBytes [(startAt 4094 0x6A5C).mem.read 4094, (startAt 4094 0x6A5C).mem.read 4095] = .ok (.loadImm 0xA 0x5C, []) :=
  ⟨by decide, by decide, by rfl⟩

theorem witness_FetchReadsBigEndianWordInRange : (State.reset.setPc 4094).pc.toNat ≤ 4094 ∧
    (State.reset.setPc 4095).pc.toNat = 4095 ∧ 4096 ≤ (State.reset.setPc 4096).pc.toNat ∧
    (State.reset.setPc 4095).status = .ready ∧ 4095 ≤ (State.reset.setPc 4095).pc.toNat := by decide

theorem witness_StepOnIllegalWordHalts : (startAt 4094 0x5121).status = .ready ∧ (startAt 4094 0x5121).pc.toNat ≤ 4094 ∧
    ∀ i, decodeWord ((startAt 4094 0x5121).wordAt (startAt 4094 0x5121).pc.toNat) ≠ .ok i := by
  have h : decodeWord ((startAt 4094 0x5121).wordAt (startAt 4094 0x5121).pc.toNat) = .error (.unimplemented 0x5121) := by rfl
  exact ⟨by decide, by decide, fun i hi => by rw [h] at hi; cases hi⟩

theorem witness_HaltedMachineIgnoresCommands : ∃ r, halted.status = .halted r := ⟨_, rfl⟩

/-- The state before a step, its instruction, and what the word must be. -/
theorem nextInstr_start (s : State) (i : Instr) (hs : s.status = .ready) (hp : s.pc.toNat ≤ 4094)
    (hd : decodeWord (s.wordAt s.pc.toNat) = .ok i) : s.NextInstr i := ⟨hs, hp, hd⟩

theorem witness_OnlyRandReadsInputByte : (start 0xCF0F).NextInstr (.rand 15 0x0F) ∧
    ∀ x nn, ¬ (start 0x6A5C).NextInstr (.rand x nn) := by
  refine ⟨⟨by decide, by decide, by rfl⟩, fun x nn h => ?_⟩
  have h1 : decodeWord ((start 0x6A5C).wordAt (start 0x6A5C).pc.toNat) = .ok (.loadImm 0xA 0x5C) := by rfl
  have h2 := h.decodes
  rw [h1] at h2
  cases h2

/-- A READY step that halts, for each cause of R133 a step has: the states of the fault tests above, and the smallest DRAW,
STORE_REGS and LOAD_REGS past memory. -/
theorem witness_StepFaultRecordStatesItsCause :
    ∀ s ∈ [State.reset.setPc 4095, startAt 4094 0x5121, (start 0xD011).setI 4096, (start 0xF033).setI 4094,
      (start 0xFF55).setI 4081, (start 0xFF65).setI 4081, (start 0xE29E).setReg 2 16, (start 0xE2A1).setReg 2 16,
      (start 0xF029).setReg 0 16, { start 0x2300 with sp := 16 }, start 0x00EE],
    s.status = .ready ∧ ∃ t r, step s = .next t ∧ t.status = .halted r := by
  have key : ∀ s : State, s.status = .ready → (view (fun t => decide (t.status = .ready)) s = some false) →
      s.status = .ready ∧ ∃ t r, step s = .next t ∧ t.status = .halted r := by
    intro s hs h
    obtain ⟨t, ht, hf⟩ := next_of_view h
    cases hr : t.status with
    | ready => simp [hr] at hf
    | halted r => exact ⟨hs, t, r, ht, hr⟩
  intro s hs
  simp only [List.mem_cons, List.not_mem_nil, or_false] at hs
  rcases hs with rfl | rfl | rfl | rfl | rfl | rfl | rfl | rfl | rfl | rfl | rfl <;> exact key _ (by decide) (by decide +kernel)

/-- For each row of the table of R22 a step of it that succeeds: both sides of each skip, a key up and a key pressed. -/
theorem witness_SuccessfulStepMovesPcAsTabled :
    ∀ p ∈ [((start 0x3012), Instr.skipEqImm 0 0x12), (start 0x4012, .skipNeqImm 0 0x12), (start 0x5120, .skipEqReg 1 2),
      (start 0x9120, .skipNeqReg 1 2), (start 0x3000, .skipEqImm 0 0), (start 0x4000, .skipNeqImm 0 0),
      ((start 0x5120).setReg 1 9, .skipEqReg 1 2), ((start 0x9120).setReg 1 9, .skipNeqReg 1 2),
      (start 0xE09E, .skipKey 0), ((start 0xE09E).setKeySlot 0 true, .skipKey 0), (start 0xE0A1, .skipNokey 0),
      ((start 0xE0A1).setKeySlot 0 true, .skipNokey 0), (start 0x1ABC, .jmp 0xABC), (start 0x2300, .call 0x300),
      ((start 0xBFFF).setReg 0 0xFF, .jmpOffset 0xFFF), ({ start 0x00EE with sp := 1 }, .ret), (start 0xF00A, .waitKey 0),
      ((start 0xF00A).setKeySlot 15 true, .waitKey 0), (start 0x0000, .nop)],
    p.1.NextInstr p.2 ∧ ∃ t, step p.1 = .next t ∧ t.status = .ready := by
  have key : ∀ (s : State) (i : Instr), s.NextInstr i → (view (fun t => decide (t.status = .ready)) s = some true) →
      s.NextInstr i ∧ ∃ t, step s = .next t ∧ t.status = .ready := by
    intro s i hi h
    obtain ⟨t, ht, hf⟩ := next_of_view h
    exact ⟨hi, t, ht, by simpa using hf⟩
  intro p hp
  simp only [List.mem_cons, List.not_mem_nil, or_false] at hp
  rcases hp with rfl | rfl | rfl | rfl | rfl | rfl | rfl | rfl | rfl | rfl | rfl | rfl | rfl | rfl | rfl | rfl | rfl | rfl | rfl <;>
    exact key _ _ ⟨by decide, by decide, by rfl⟩ (by decide +kernel)

/-- An instruction of each kind of effect that succeeds, among them one the clauses on `I`, the stack, `sp`, the framebuffer,
the timers and memory do not except (NOP). -/
theorem witness_InstructionsWriteOnlyListedFields : ∃ t, exec .nop (start 0x0000) = .next t ∧ t.status = .ready ∧
    (∀ r, writesReg .nop r = false) ∧ (∀ nnn x, Instr.nop ≠ .loadI nnn ∧ Instr.nop ≠ .addI x ∧ Instr.nop ≠ .fontAddr x) ∧
    (∀ nnn, Instr.nop ≠ .call nnn ∧ Instr.nop ≠ .ret) ∧ (∀ x y n, Instr.nop ≠ .cls ∧ Instr.nop ≠ .draw x y n) ∧
    (∀ x, Instr.nop ≠ .setDt x) ∧ (∀ x, Instr.nop ≠ .setSt x) ∧ (∀ x, Instr.nop ≠ .bcd x ∧ Instr.nop ≠ .storeRegs x) :=
  ⟨_, rfl, rfl, fun _ => rfl, by simp, by simp, by simp, by simp, by simp, by simp⟩

theorem witness_InstructionsWriteOnlyListedFields_writers :
    (∃ t, exec (.loadRegs 14) (start 0xFE65) = .next t ∧ t.status = .ready ∧ writesReg (.loadRegs 14) 15 = false) ∧
    (∃ t, exec (.draw 0 1 15) (start 0xD01F) = .next t ∧ t.status = .ready ∧ writesReg (.draw 0 1 15) 0 = false) ∧
    (∃ t, exec (.storeRegs 15) (start 0xFF55) = .next t ∧ t.status = .ready ∧ writesReg (.storeRegs 15) 0 = false) ∧
    (∃ t, exec (.add 1 2) (start 0x8124) = .next t ∧ t.status = .ready ∧ writesReg (.add 1 2) 2 = false) :=
  ⟨⟨_, rfl, rfl, rfl⟩, ⟨_, rfl, rfl, rfl⟩, ⟨_, rfl, rfl, rfl⟩, ⟨_, rfl, rfl, rfl⟩⟩

/-- A state that is not the reset state: a CALL in memory, and one return address at its bound. -/
def called : State := { start 0x2300 with sp := 1, stack := (Vector.replicate 16 (0 : Word)).set 0 0x1000 }

theorem witness_StepKeepsInvariant : called.Inv ∧ ∃ t, step called = .next t ∧ t.status = .ready where
  left := {
    mem := Memory.wf_write (Memory.wf_write Memory.wf_nil (by decide) _) (by decide) _
    pc := fun _ => by decide
    stack := fun _ => by decide
    record := fun r h => by cases h }
  right := ⟨_, rfl, rfl⟩

/-- The pc at its bound, where the fetch halts the machine; CommandsKeepInvariant has the same hypothesis. -/
theorem witness_CommandsKeepInvariant : (called.setPc 0x10FE).Inv where
  mem := witness_StepKeepsInvariant.1.mem
  pc := fun _ => by decide
  stack := fun _ => by decide
  record := fun r h => by cases h

theorem witness_ReachablePcNeverWraps : Reachable State.reset ∧ State.reset.status = .ready := ⟨⟨[], rfl⟩, rfl⟩

theorem witness_CallPushesOrOverflows : ({ start 0x2300 with sp := 15 } : State).sp.val < 16 ∧
    ({ start 0x2300 with sp := 16 } : State).sp.val = 16 := by decide

theorem witness_RetPopsOrUnderflows : 0 < ({ start 0x00EE with sp := 1 } : State).sp.val ∧ (start 0x00EE).sp.val = 0 := by decide

/-- E2, with the callee at the last word of memory. -/
theorem witness_CallThenRetReturnsAfterCall : ((start 0x2FFE).placeWord 0xFFE 0x00EE).NextInstr (.call 0xFFE) ∧
    ((start 0x2FFE).placeWord 0xFFE 0x00EE).sp.val < 16 ∧ (0xFFE : Addr12).toNat ≤ 4094 ∧
    ((start 0x2FFE).placeWord 0xFFE 0x00EE).wordAt (0xFFE : Addr12).toNat = 0x00EE :=
  ⟨⟨by decide, by decide, by rfl⟩, by decide, by decide, by decide⟩

theorem witness_SelfJumpIsFixedPoint : (startAt 4094 0x1FFE).NextInstr (.jmp 0xFFE) ∧
    (startAt 4094 0x1FFE).pc.toNat = (0xFFE : Addr12).toNat := ⟨⟨by decide, by decide, by rfl⟩, by decide⟩

/-- Both operands of every skip, equal and not. -/
theorem witness_SkipsAddTwoExactlyWhenConditionHolds : State.reset.reg 1 = 0 ∧ State.reset.reg 1 ≠ 0xFF ∧
    State.reset.reg 1 = State.reset.reg 2 ∧ (State.reset.setReg 1 9).reg 1 ≠ (State.reset.setReg 1 9).reg 2 := by decide

/-- Words that meet the premises of the encodings (`Encodes`) stated with an instruction's result. -/
theorem witness_Encodes : (0x0000 : Word) &&& 0xFFFF = 0x0000 ∧ (0x6FFF : Word) &&& 0xF000 = 0x6000 ∧
    (0x8FF4 : Word) &&& 0xF00F = 0x8004 ∧ (0xFF65 : Word) &&& 0xF0FF = 0xF065 := by decide

/-- A destination that is not VF, and one that is; SubtractsWriteWrappedDifferenceThenNotBorrow and
ShiftsWriteShiftedValueThenLostBit have the same hypothesis. -/
theorem witness_AddWritesWrappedSumThenCarry : (14 : RegIdx) ≠ VF ∧ (15 : RegIdx) = VF := by decide

/-- The last rows inside memory (also for DrawInvertsSpriteCellsAndReportsCollision), and the first row past memory. -/
theorem witness_DrawPastMemoryHalts : (State.reset.setI 4081).I.toNat + 15 ≤ 4096 ∧ 4096 < (State.reset.setI 4082).I.toNat + 15 ∧
    4096 < (State.reset.setI 4096).I.toNat + 1 := by decide

/-- A sprite cell over a lit cell, a sprite cell over an unlit one, and a cell the sprite does not touch. -/
theorem witness_DrawInvertsSpriteCellsAndReportsCollision :
    let s := (withBytes (start 0xD011) 0x300 [0xC0]).setI 0x300
    s.SpriteOn 0 1 1 0 0 ∧ s.SpriteOn 0 1 1 1 0 ∧ ¬ s.SpriteOn 0 1 1 0 1 ∧ s.cellAt 0 0 = false ∧
      (s.setFb (Vector.replicate 2048 true)).cellAt 0 0 = true := by
  refine ⟨⟨0, 0, by decide, by decide, by decide, by decide, by decide⟩,
    ⟨0, 1, by decide, by decide, by decide, by decide, by decide⟩, ?_, by decide +kernel, by decide +kernel⟩
  rintro ⟨row, col, hr, -, -, -, hy⟩
  have : row = 0 := by omega
  subst this
  exact absurd hy (by decide)

theorem witness_DrawTwiceRestoresScreen : ∃ t, exec (.draw 0 1 15) (State.reset.setI 4081) = .next t ∧
    t.reg 2 = (State.reset.setI 4081).reg 0 ∧ t.reg 3 = (State.reset.setI 4081).reg 1 :=
  ⟨_, exec_draw_ok _ _ _ (by decide), drawn_reg _ _ _ _ (by decide), drawn_reg _ _ _ _ (by decide)⟩

/-- D2's sprite over unlit cells: the first DRAW erases nothing, and the sprite has a 1-bit. -/
theorem witness_DrawTwiceRestoresScreen_unlit :
    let s := (withBytes State.reset 0x300 [0xC0]).setI 0x300
    (match exec (.draw 0 1 1) s with | .next t => some (t.reg VF, t.reg 0, t.reg 1) | _ => none) = some (0, s.reg 0, s.reg 1) ∧
      ∃ row, row < 1 ∧ s.mem.read (s.I.toNat + row) ≠ 0 :=
  ⟨by decide +kernel, 0, by decide, by decide⟩

theorem witness_KeySkipsTestKeyOrHalt : ((start 0xE29E).setReg 2 15).reg 2 = 15 ∧ 16 ≤ (((start 0xE29E).setReg 2 16).reg 2).toNat := by
  decide

/-- One key pressed, the highest, and none. -/
theorem witness_WaitKeyStoresLowestKeyOrRewinds : (State.reset.setKeySlot 15 true).keys[15] = true ∧
    (∀ j : Fin 16, j.val < 15 → (State.reset.setKeySlot 15 true).keys[j] = false) ∧
    (∀ k : Fin 16, State.reset.keys[k] = false) := by decide

theorem witness_WaitKeyBlocksUntilKeyPressed : (start 0xF30A).NextInstr (.waitKey 3) ∧
    (∀ k : Fin 16, (start 0xF30A).keys[k] = false) ∧ ((start 0xF30A).setKeySlot 15 true).NextInstr (.waitKey 3) ∧
    (∃ k : Fin 16, ((start 0xF30A).setKeySlot 15 true).keys[k] = true) :=
  ⟨⟨by decide, by decide, by rfl⟩, by decide, ⟨by decide, by decide, by rfl⟩, 15, by decide⟩

theorem witness_FontAddressOfGlyphOrHalts : ((start 0xF029).setReg 0 15).reg 0 = 15 ∧
    16 ≤ (((start 0xF029).setReg 0 16).reg 0).toNat := by decide

theorem witness_BcdStoresThreeDigitsOrHalts : (State.reset.setI 4093).I.toNat + 2 < 4096 ∧
    4096 ≤ (State.reset.setI 4094).I.toNat + 2 := by decide

/-- For StoreRegsCopiesRegistersOrHalts and LoadRegsCopiesMemoryOrHalts: one and all registers, at the last address that fits and at the first that does not. -/
theorem witness_RegisterTransfers : (State.reset.setI 4095).I.toNat + (0 : RegIdx).val < 4096 ∧
    (State.reset.setI 4080).I.toNat + (15 : RegIdx).val < 4096 ∧ 4096 ≤ (State.reset.setI 4096).I.toNat + (0 : RegIdx).val ∧
    4096 ≤ (State.reset.setI 4081).I.toNat + (15 : RegIdx).val ∧ ((15 : RegIdx) ≤ 15 ∧ ¬ (15 : RegIdx) ≤ 14) := by decide

theorem witness_StoreThenLoadRestoresRegisters : ∃ t, exec (.storeRegs 15) (State.reset.setI 4080) = .next t ∧
    SameBut [.V] t (t.setReg 0 0xFF) := ⟨_, rfl, sameBut_setReg _ _ _⟩

/-- The last pair of registers that makes a word. -/
theorem witness_StoredWordIsFetchedNext : ∃ t, exec (.storeRegs 15) (State.reset.setI 4080) = .next t ∧
    14 + 1 ≤ (15 : RegIdx).val ∧ (0xFFE : Word).toNat = (State.reset.setI 4080).I.toNat + 14 := ⟨_, rfl, by decide, by decide⟩

theorem witness_LoadWritesProgramSpaceOrHalts : (List.replicate 3584 (0 : Byte)).length ≤ 3584 ∧
    3584 < (List.replicate 3585 (0 : Byte)).length ∧ State.reset.status = .ready ∧ (∃ r, halted.status = .halted r) :=
  ⟨by rw [List.length_replicate], by rw [List.length_replicate]; decide, rfl, _, rfl⟩

theorem witness_TickDecrementsNonzeroTimers : State.reset.status = .ready ∧ State.reset.DT = 0 ∧ State.reset.ST = 0 ∧
    0 < (State.reset.setDT 1).DT.toNat ∧ 0 < (State.reset.setST 255).ST.toNat := by decide

theorem witness_SetKeySetsOneSlotOrHalts : State.reset.status = .ready ∧ (15 : Fin 16).val = 15 ∧ (14 : Fin 16) ≠ 15 := by decide

theorem witness_BootFetchesFirstProgramWord : (List.replicate 3582 (0 : Byte)).length + 2 ≤ 3584 ∧ State.reset.status = .ready :=
  ⟨by rw [List.length_replicate], rfl⟩

end Sys2Proof.Tests
end

/-! ### What a successful execute phase does

Shared by the obligations on the state: the bounds a successful execute phase meets, the fields it writes, the
registers it writes, and the pc it leaves. -/

namespace Sys2Proof.Machine

open State

variable {s t : State} {i : Instr}

/-- The conditions under which the execute phase of an instruction raises none of the faults of R133. -/
def State.MeetsBounds (s : State) : Instr → Prop
  | .ret => 0 < s.sp.val
  | .call _ => s.sp.val < 16
  | .skipKey x | .skipNokey x | .fontAddr x => (s.reg x).toNat < 16
  | .draw _ _ n => n = 0 ∨ s.I.toNat + n ≤ 4096
  | .bcd _ => s.I.toNat + 2 < 4096
  | .storeRegs x | .loadRegs x => s.I.toNat + x.val < 4096
  | _ => True

/-- The fields an instruction writes when it raises no fault (R20, R22 to R31, R39). -/
def fieldsWritten : Instr → List Field
  | .nop => []
  | .cls => [.fb]
  | .ret => [.sp, .pc]
  | .call _ => [.stack, .sp, .pc]
  | .jmp _ | .jmpOffset _ | .skipEqImm _ _ | .skipNeqImm _ _ | .skipEqReg _ _ | .skipNeqReg _ _ | .skipKey _
  | .skipNokey _ => [.pc]
  | .loadI _ | .addI _ | .fontAddr _ => [.I]
  | .loadImm _ _ | .addImm _ _ | .mov _ _ | .or _ _ | .and _ _ | .xor _ _ | .add _ _ | .sub _ _ | .shr _ | .subn _ _
  | .shl _ | .loadDt _ | .loadRegs _ => [.V]
  | .rand _ _ => [.V, .draws]
  | .draw _ _ _ => [.fb, .V]
  | .waitKey _ => [.V, .pc]
  | .setDt _ => [.DT]
  | .setSt _ => [.ST]
  | .bcd _ | .storeRegs _ => [.mem]

/-- A raised fault does not end READY (R137). -/
theorem not_ready_of_raised {code : FaultCode} {info : Option Nat} {parts : List State}
    (h : (.next (s.raiseExec i code info parts) : Host.Outcome State Fault Refusal) = .next t) : t.status ≠ .ready := by
  cases h; simp

/-- An execute phase that ends READY met the bounds of its instruction: outside them it raises a fault. -/
theorem meetsBounds_of_ready (h : exec i s = .next t) (ht : t.status = .ready) : s.MeetsBounds i := by
  by_contra hb
  cases i with
  | ret => rw [exec_ret_empty (by simpa [MeetsBounds] using hb)] at h; exact not_ready_of_raised h ht
  | call nnn =>
    have hfull : s.sp.val = 16 := by have := s.sp.isLt; simp only [MeetsBounds] at hb; omega
    rw [exec_call_full nnn hfull] at h; exact not_ready_of_raised h ht
  | skipKey x => rw [exec_skipKey_bad x (Nat.not_lt.1 hb)] at h; exact not_ready_of_raised h ht
  | skipNokey x => rw [exec_skipNokey_bad x (Nat.not_lt.1 hb)] at h; exact not_ready_of_raised h ht
  | fontAddr x => rw [exec_fontAddr_bad x (Nat.not_lt.1 hb)] at h; exact not_ready_of_raised h ht
  | draw x y n =>
    simp only [MeetsBounds] at hb
    rw [exec_draw_bad x y n (by omega) (by omega)] at h; exact not_ready_of_raised h ht
  | bcd x => rw [exec_bcd_bad x (Nat.not_lt.1 hb)] at h; exact not_ready_of_raised h ht
  | storeRegs x => rw [exec_storeRegs_bad x (Nat.not_lt.1 hb)] at h; exact not_ready_of_raised h ht
  | loadRegs x =>
    obtain ⟨part, -, hexec⟩ := exec_loadRegs_bad x (Nat.not_lt.1 hb)
    rw [hexec] at h; exact not_ready_of_raised h ht
  | _ => exact hb trivial

/-- WAIT_KEY stores a pressed key, or no key is pressed and it rewinds the pc (R122, R123). -/
theorem exec_waitKey_cases {x : RegIdx} (h : exec (.waitKey x) s = .next t) :
    (∃ k : Fin 16, s.keys[k] = true ∧ t = s.setReg x (BitVec.ofNat 8 k.val)) ∨
    ((∀ k : Fin 16, s.keys[k] = false) ∧ t = s.setPc (s.pc - 2)) := by
  rw [exec, execWaitKey] at h
  split at h
  · next k hk => cases h; exact .inl ⟨k, ((firstKey_eq_some _ _).1 hk).1, rfl⟩
  · next hnone => cases h; exact .inr ⟨(firstKey_eq_none _).1 hnone, rfl⟩

/-- A frame that excepts more fields says less. -/
theorem sameBut_mono {fields more : List Field} (hsub : fields ⊆ more) (h : SameBut fields s t) : SameBut more s t where
  mem hf := h.mem fun hm => hf (hsub hm)
  pc hf := h.pc fun hm => hf (hsub hm)
  V hf := h.V fun hm => hf (hsub hm)
  I hf := h.I fun hm => hf (hsub hm)
  stack hf := h.stack fun hm => hf (hsub hm)
  sp hf := h.sp fun hm => hf (hsub hm)
  fb hf := h.fb fun hm => hf (hsub hm)
  keys hf := h.keys fun hm => hf (hsub hm)
  DT hf := h.DT fun hm => hf (hsub hm)
  ST hf := h.ST fun hm => hf (hsub hm)
  status hf := h.status fun hm => hf (hsub hm)
  draws hf := h.draws fun hm => hf (hsub hm)

/-- A skip, taken or not, writes the pc alone. -/
theorem sameBut_skipIf (c : Bool) : SameBut [.pc] s (s.skipIf c) := by
  rw [skipIf_eq]; exact sameBut_setPc s _

/-- The frame of every execute phase that raises no fault. -/
theorem exec_frame (h : exec i s = .next t) (ht : t.status = .ready) : SameBut (fieldsWritten i) s t := by
  have hb := meetsBounds_of_ready h ht
  cases i with
  | nop => cases h; exact sameBut_refl s _
  | cls => cases h; exact sameBut_setFb s _
  | ret => rw [exec_ret_ok hb] at h; cases h; constructor <;> simp [fieldsWritten, reg]
  | call nnn => rw [exec_call_ok nnn hb] at h; cases h; constructor <;> simp [fieldsWritten, reg]
  | jmp | jmpOffset => cases h; exact sameBut_setPc s _
  | skipEqImm | skipNeqImm | skipEqReg | skipNeqReg => cases h; exact sameBut_skipIf _
  | skipKey x => rw [exec_skipKey_ok x ⟨_, hb⟩ rfl] at h; cases h; exact sameBut_skipIf _
  | skipNokey x => rw [exec_skipNokey_ok x ⟨_, hb⟩ rfl] at h; cases h; exact sameBut_skipIf _
  | loadImm | addImm | mov | or | and | xor | loadDt => cases h; exact sameBut_setReg s _ _
  | add | sub | shr | subn | shl => cases h; exact sameBut_setRegThenFlag s _ _ _
  | loadI | addI => cases h; exact sameBut_setI s _
  | fontAddr x => rw [exec_fontAddr_ok x hb] at h; cases h; exact sameBut_setI s _
  | rand x nn => cases h; constructor <;> simp [fieldsWritten, randWith]
  | draw x y n => rw [exec_draw_ok x y n hb] at h; cases h; exact sameBut_drawn s x y n
  | waitKey x =>
    rcases exec_waitKey_cases h with ⟨k, -, rfl⟩ | ⟨-, rfl⟩
    · exact sameBut_mono (by simp [fieldsWritten]) (sameBut_setReg s _ _)
    · exact sameBut_mono (by simp [fieldsWritten]) (sameBut_setPc s _)
  | setDt => cases h; exact sameBut_setDT s _
  | setSt => cases h; exact sameBut_setST s _
  | bcd x => rw [exec_bcd_ok x hb] at h; cases h; exact sameBut_setMem s _
  | storeRegs x => rw [exec_storeRegs_ok x hb] at h; cases h; exact sameBut_setMem s _
  | loadRegs x => rw [exec_loadRegs_ok x hb] at h; cases h; exact sameBut_setRegsFrom s _ _

/-- An execute phase that raises no fault leaves the registers outside the list of R20. -/
theorem exec_keeps_unlisted_regs (h : exec i s = .next t) (ht : t.status = .ready) {r : RegIdx}
    (hr : writesReg i r = false) : t.reg r = s.reg r := by
  have hb := meetsBounds_of_ready h ht
  cases i with
  | loadImm | addImm | mov | or | and | xor | rand | loadDt =>
    cases h; exact setReg_reg_of_ne s _ (by simpa [writesReg] using hr)
  | add | sub | shr | subn | shl =>
    cases h; exact sameRegsBut_setRegThenFlag s _ _ _ r (by simpa [writesReg] using hr)
  | draw x y n =>
    rw [exec_draw_ok x y n hb] at h; cases h; exact drawn_reg x y n r (by simpa [writesReg] using hr)
  | waitKey x =>
    rcases exec_waitKey_cases h with ⟨k, -, rfl⟩ | ⟨-, rfl⟩
    · exact setReg_reg_of_ne s _ (by simpa [writesReg] using hr)
    · rfl
  | loadRegs x =>
    have hx : x.val < r.val := by simpa [writesReg] using hr
    rw [exec_loadRegs_ok x hb] at h; cases h
    rw [setRegsFrom_reg, List.getElem?_eq_none (by simp; omega)]; simp
  | _ => exact (exec_frame h ht).V (by simp [fieldsWritten]) r

/-- Settles O16: the registers by R20, the fields by the frame of the execute phase. -/
theorem instructionsWriteOnlyListedFields : Obligations.InstructionsWriteOnlyListedFields := by
  intro s t i h ht
  have hf := exec_frame h ht
  refine ⟨fun r => exec_keeps_unlisted_regs h ht, fun hi => hf.I ?_, fun hi => hf.stack ?_, fun hi => hf.sp ?_,
    fun hi => hf.fb ?_, hf.keys ?_, fun hi => hf.DT ?_, fun hi => hf.ST ?_, fun hi => hf.mem ?_⟩
  -- A field stands in the list of `i` only where its clause excepts `i`.
  all_goals cases i <;> simp_all [fieldsWritten]

/-! ### The pc after a step -/

/-- The exact sum JMP_OFFSET jumps to is the word the table of R22 names. -/
theorem zextByte_add_zextNnn (v : Byte) (nnn : Addr12) :
    zextByte v + zextNnn nnn = BitVec.ofNat 16 (v.toNat + nnn.toNat) := by
  apply BitVec.eq_of_toNat_eq
  simp [zextByte, zextNnn]

/-- The top entry of the return stack is one of the 16. -/
theorem sp_pred_lt (s : State) : s.sp.val - 1 < 16 := by have := s.sp.isLt; omega

/-- The pc past an instruction, after a conditional skip. -/
theorem skip_skipIf_pc (c : Bool) : (s.skip.skipIf c).pc = if c then s.pc + 4 else s.pc + 2 := by
  cases c
  · rfl
  · exact BitVec.add_assoc s.pc 2 2

/-- The pressed level of the key a register names, where it names one. -/
theorem exists_key_iff (v : Byte) (hv : v.toNat < 16) (b : Bool) :
    (∃ k : Fin 16, k.val = v.toNat ∧ s.keys[k] = b) ↔ s.keys[(⟨v.toNat, hv⟩ : Fin 16)] = b := by
  constructor
  · rintro ⟨k, hk, hb⟩
    obtain rfl : k = ⟨v.toNat, hv⟩ := Fin.ext hk
    exact hb
  · exact fun hb => ⟨_, rfl, hb⟩

/-- The pc an execute phase leaves when it raises no fault is the one of the table of R22. -/
theorem exec_skip_pc (h : exec i s.skip = .next t) (ht : t.status = .ready) : t.pc = s.netPc i := by
  have hb := meetsBounds_of_ready h ht
  cases i with
  | skipEqImm | skipNeqImm | skipEqReg | skipNeqReg => cases h; rw [skip_skipIf_pc]; simp [netPc]
  | skipKey x =>
    have hx : (s.reg x).toNat < 16 := hb
    rw [exec_skipKey_ok (s := s.skip) x ⟨_, hx⟩ rfl] at h; cases h
    simp only [skip_skipIf_pc, skip_keys, netPc, exists_key_iff _ hx]
  | skipNokey x =>
    have hx : (s.reg x).toNat < 16 := hb
    rw [exec_skipNokey_ok (s := s.skip) x ⟨_, hx⟩ rfl] at h; cases h
    simp only [skip_skipIf_pc, skip_keys, netPc, exists_key_iff _ hx, Bool.not_eq_true']
  | jmp => cases h; rfl
  | call nnn => rw [exec_call_ok nnn hb] at h; cases h; rfl
  | jmpOffset nnn => cases h; exact zextByte_add_zextNnn _ nnn
  | ret =>
    rw [exec_ret_ok hb] at h; cases h
    simp [netPc, sp_pred_lt]
  | waitKey x =>
    rcases exec_waitKey_cases h with ⟨k, hk, rfl⟩ | ⟨hup, rfl⟩
    · have hpressed : ∃ k : Fin 16, s.keys[k] = true := ⟨k, hk⟩
      rw [netPc, if_pos hpressed]; rfl
    · have hnone : ¬ ∃ k : Fin 16, s.keys[k] = true := by simpa using hup
      rw [netPc, if_neg hnone]; exact BitVec.add_sub_cancel s.pc 2
  | _ => exact (exec_frame h ht).pc (by simp [fieldsWritten])

/-- Settles O15: the step is the execute phase past the word, whose pc is tabled. -/
theorem successfulStepMovesPcAsTabled : Obligations.SuccessfulStepMovesPcAsTabled := by
  intro s t i hi h ht
  rw [step, cycle_instr hi] at h
  exact exec_skip_pc h ht

/-! ### The invariant -/

/-- A state with the memory, pc, stack, stack pointer and latch of one with the invariant has it. -/
theorem inv_of_same (hs : s.Inv) (hmem : t.mem = s.mem) (hpc : t.pc = s.pc) (hstack : t.stack = s.stack)
    (hsp : t.sp = s.sp) (hstatus : t.status = s.status) : t.Inv where
  mem := hmem ▸ hs.mem
  pc h := hpc ▸ hs.pc (hstatus ▸ h)
  stack h k hk := by
    have := hs.stack (hstatus ▸ h) k (hsp ▸ hk)
    rwa [← hstack] at this
  record r h := hs.record r (hstatus ▸ h)

/-- A HALTED state with canonical memory and a well-formed record has the invariant. -/
theorem inv_of_halted {r : FaultRecord} (hmem : t.mem.wf) (ht : t.status = .halted r) (hr : r.wf = true) : t.Inv where
  mem := hmem
  pc h := by simp [ht] at h
  stack h := by simp [ht] at h
  record r' h := by
    obtain rfl : r = r' := by simpa [ht] using h
    exact hr

/-- The pc of the table of R22 is at most 0x10FE, the largest target of JMP_OFFSET (R23). -/
theorem netPc_le (hs : s.Inv) (hi : s.NextInstr i) (hret : i = .ret → 0 < s.sp.val) : (s.netPc i).toNat ≤ 0x10FE := by
  have hpc := hi.inRange
  have h2 : (s.pc + 2).toNat ≤ 0x10FE := by bv_omega
  have h4 : (s.pc + 4).toNat ≤ 0x10FE := by bv_omega
  cases i with
  | skipEqImm | skipNeqImm | skipEqReg | skipNeqReg | skipKey | skipNokey =>
    rw [netPc]; split
    · exact h4
    · exact h2
  | jmp nnn | call nnn =>
    have := nnn.isLt
    simp only [netPc, BitVec.toNat_setWidth]; omega
  | jmpOffset nnn =>
    have := nnn.isLt
    have := (s.reg 0).isLt
    simp only [netPc, BitVec.toNat_ofNat]; omega
  | ret =>
    have hpos := hret rfl
    have hentry := hs.stack hi.ready ⟨s.sp.val - 1, sp_pred_lt s⟩ (Nat.sub_one_lt_of_lt hpos)
    simp only [Fin.getElem_fin] at hentry
    simp only [netPc, Vector.getElem?_eq_getElem (sp_pred_lt s), Option.getD_some]; omega
  | waitKey =>
    rw [netPc]; split
    · exact h2
    · omega
  | _ => exact h2

/-- A successful execute phase keeps every pushed return address at most 0x1000: CALL pushes a pc that a fetch could
read, plus 2, and RET pushes nothing (R23). -/
theorem exec_keeps_returns (hs : s.Inv) (hi : s.NextInstr i) (h : exec i s.skip = .next t) (ht : t.status = .ready)
    (k : Fin 16) (hk : k.val < t.sp.val) : t.stack[k].toNat ≤ 0x1000 := by
  have hb := meetsBounds_of_ready h ht
  have hf := exec_frame h ht
  have hold := hs.stack hi.ready k
  cases i with
  | call nnn =>
    rw [exec_call_ok nnn hb] at h; cases h
    by_cases hnew : s.sp.val = k.val
    · have hpushed : (s.pc + 2).toNat ≤ 0x1000 := by have := hi.inRange; bv_omega
      simpa [hnew] using hpushed
    · have hlt : k.val < s.sp.val + 1 := hk
      simpa [hnew] using hold (by omega)
  | ret =>
    rw [exec_ret_ok hb] at h; cases h
    have hlt : k.val < s.sp.val - 1 := hk
    exact hold (by omega)
  | _ =>
    rw [hf.sp (by simp [fieldsWritten])] at hk
    rw [hf.stack (by simp [fieldsWritten])]
    exact hold hk

/-- The execute phase of the instruction at the pc keeps the invariant. -/
theorem exec_inv (hs : s.Inv) (hi : s.NextInstr i) (h : exec i s.skip = .next t) : t.Inv := by
  rcases exec_ends i h with ⟨hstatus, hmem⟩ | hraised
  · have ht : t.status = .ready := hstatus.trans hi.ready
    have hret : i = .ret → 0 < s.sp.val := by rintro rfl; exact meetsBounds_of_ready h ht
    exact {
      mem := hmem hs.mem
      pc := fun _ => exec_skip_pc h ht ▸ netPc_le hs hi hret
      stack := fun _ => exec_keeps_returns hs hi h ht
      record := fun r hr => by simp [ht] at hr }
  · have hmem := raisedBy_wf hraised hs.mem
    obtain ⟨code, info, parts, rfl, hrecord, -⟩ := hraised
    exact inv_of_halted hmem (raiseExec_status ..) hrecord

/-- A fault raised before the execute phase leaves canonical memory. -/
theorem raise_skip_mem_wf (hs : s.Inv) (r : FaultRecord) : (raise r s [s.skip]).mem.wf :=
  raise_wf r s [s.skip] (by simpa using hs.mem)

/-- A step command keeps the invariant where its execute phase does. -/
theorem cycle_inv {run : Instr → State → Host.Outcome State Fault Refusal} (hs : s.Inv)
    (hrun : ∀ i, s.NextInstr i → run i s.skip = .next t → t.Inv) (h : cycle run s = .next t) : t.Inv := by
  rcases cycle_cases run s with ⟨r, -, hc⟩ | ⟨-, -, hc⟩ | ⟨-, -, -, hc⟩ | ⟨i, hi, hc⟩ <;> rw [hc] at h
  · cases h; exact hs
  · cases h; exact inv_of_halted (raise_skip_mem_wf hs _) (raiseFetch_status ..) (by simp [FaultRecord.wf])
  · cases h; exact inv_of_halted (raise_skip_mem_wf hs _) (raiseUnimplemented_status ..) (by simp [FaultRecord.wf])
  · exact hrun i hi h

/-- Settles O17: a step faults with a well-formed record, or its execute phase keeps the bounds of R23. -/
theorem stepKeepsInvariant : Obligations.StepKeepsInvariant :=
  fun _ _ hs h => cycle_inv hs (fun _ hi hexec => exec_inv hs hi hexec) h

/-- Settles O18. -/
theorem resetHasInvariant : Obligations.ResetHasInvariant where
  mem := Memory.wf_nil
  pc _ := by decide
  stack _ k hk := absurd hk (Nat.not_lt_zero _)
  record r h := by cases h

/-! ### The commands keep the invariant -/

/-- Only RAND's execute phase depends on the input byte (R77). -/
theorem execWith_of_not_rand {b : Byte} (hi : ∀ x nn, i ≠ .rand x nn) : execWith b i s = exec i s := by
  cases i with
  | rand x nn => exact absurd rfl (hi x nn)
  | _ => rfl

/-- RAND at the pc keeps the invariant, whatever its input byte is. -/
theorem randWith_inv {x : RegIdx} {nn : Byte} (b : Byte) (hs : s.Inv) (hi : s.NextInstr (.rand x nn)) :
    (randWith b x nn s.skip).Inv :=
  have hexec : (randWith (Config.rnd s.draws) x nn s.skip).Inv := exec_inv hs hi rfl
  inv_of_same hexec rfl rfl rfl rfl rfl

/-- The step command keeps the invariant, whatever its input byte is. -/
theorem stepWith_inv {b : Byte} (hs : s.Inv) (h : stepWith b s = .next t) : t.Inv := by
  refine cycle_inv hs (fun i hi hrun => ?_) h
  by_cases hrand : ∃ x nn, i = .rand x nn
  · obtain ⟨x, nn, rfl⟩ := hrand
    cases hrun; exact randWith_inv b hs hi
  · rw [execWith_of_not_rand (by simpa using hrand)] at hrun
    exact exec_inv hs hi hrun

/-- A command's fault keeps the invariant where its record is well formed. -/
theorem raiseCommand_inv {code : FaultCode} {command : FaultCommand} {info : Nat} (hs : s.Inv)
    (hr : FaultRecord.wf { code := code, command := command, pc0 := none, op := none, info := some info } = true) :
    (s.raiseCommand code command info).Inv := inv_of_halted hs.mem (raiseCommand_status ..) hr

theorem loadProgram_inv (bytes : List Byte) (hs : s.Inv) : (s.loadProgram bytes).Inv := by
  unfold loadProgram
  split
  · next hbig => exact raiseCommand_inv hs (by simpa [FaultRecord.wf] using hbig)
  · next hfits =>
    have hfit : 512 + bytes.length ≤ 4096 := by
      simp only [Config.loadMax, Config.memSize, Config.loadBase] at hfits; omega
    exact { mem := writeBytes_wf hs.mem _ _ hfit, pc := hs.pc, stack := hs.stack, record := hs.record }

theorem setKey_inv (index : Nat) (pressed : Bool) (hs : s.Inv) : (s.setKey index pressed).Inv := by
  unfold setKey
  split
  · exact inv_of_same hs rfl rfl rfl rfl rfl
  · next hbad => exact raiseCommand_inv hs (by simpa [FaultRecord.wf] using hbad)

theorem whenReady_inv {act : State → State} (hs : s.Inv) (hact : (act s).Inv) : (s.whenReady act).Inv := by
  unfold whenReady
  split
  · exact hact
  · exact hs

/-- Every host command keeps the invariant. -/
theorem perform_inv {c : Command} {reply : Reply} (hs : s.Inv) (h : c.perform s = .next (t, reply)) : t.Inv := by
  cases c with
  | create | reset => cases h; exact inv_of_same resetHasInvariant rfl rfl rfl rfl rfl
  | load bytes => cases h; exact whenReady_inv hs (loadProgram_inv bytes hs)
  | step b =>
    rw [Command.perform] at h
    split at h <;> cases h
    next hstep => exact stepWith_inv hs hstep
  | tick => cases h; exact whenReady_inv hs (inv_of_same hs rfl rfl rfl rfl rfl)
  | display => cases h; exact hs
  | setKey index pressed => cases h; exact whenReady_inv hs (setKey_inv index pressed hs)

/-- Every run of host commands keeps the invariant. -/
theorem performAll_inv {cs : List Command} (hs : s.Inv) (h : Command.performAll cs s = .next t) : t.Inv := by
  induction cs generalizing s with
  | nil => cases h; exact hs
  | cons c cs ih =>
    rw [Command.performAll] at h
    split at h
    · next hc => exact ih (perform_inv hs hc) h
    · cases h
    · cases h

theorem reachable_inv (h : Reachable s) : s.Inv := by
  obtain ⟨cs, hrun⟩ := h
  exact performAll_inv resetHasInvariant hrun

/-- Settles O20: every reachable state has the invariant, which bounds the pc while READY. -/
theorem reachablePcNeverWraps : Obligations.ReachablePcNeverWraps := by
  intro s hreach hready
  have hpc := (reachable_inv hreach).pc hready
  exact ⟨hpc, by bv_omega⟩

/-! ### Ticks -/

/-- One tick of one timer, as an exact natural number (R80). -/
theorem countDown_toNat (v : Byte) : (countDown v).toNat = v.toNat - 1 := by
  unfold countDown
  split
  · bv_omega
  · omega

/-- A tick while READY counts both timers down and answers OK (R80). -/
theorem perform_tick (hs : s.status = .ready) : Command.perform .tick s = .next (s.tickTimers, .ok) := by
  simp [Command.perform, whenReady, answer, hs, tickTimers, Status.reply]

theorem tickTimers_DT_toNat (s : State) : s.tickTimers.DT.toNat = s.DT.toNat - 1 := countDown_toNat s.DT

theorem tickTimers_ST_toNat (s : State) : s.tickTimers.ST.toNat = s.ST.toNat - 1 := countDown_toNat s.ST

theorem sameBut_tickTimers (s : State) : SameBut [.DT, .ST] s s.tickTimers := by constructor <;> simp [tickTimers]

theorem sameBut_trans {fields : List Field} {u : State} (hst : SameBut fields s t) (htu : SameBut fields t u) :
    SameBut fields s u where
  mem hf a := (htu.mem hf a).trans (hst.mem hf a)
  pc hf := (htu.pc hf).trans (hst.pc hf)
  V hf r := (htu.V hf r).trans (hst.V hf r)
  I hf := (htu.I hf).trans (hst.I hf)
  stack hf := (htu.stack hf).trans (hst.stack hf)
  sp hf := (htu.sp hf).trans (hst.sp hf)
  fb hf := (htu.fb hf).trans (hst.fb hf)
  keys hf := (htu.keys hf).trans (hst.keys hf)
  DT hf := (htu.DT hf).trans (hst.DT hf)
  ST hf := (htu.ST hf).trans (hst.ST hf)
  status hf := (htu.status hf).trans (hst.status hf)
  draws hf := (htu.draws hf).trans (hst.draws hf)

/-- Settles O51, by induction on the number of ticks. -/
theorem ticksCountTimersDownToZero : Obligations.TicksCountTimersDownToZero := by
  intro n
  induction n with
  | zero => exact fun s _ => ⟨s, rfl, rfl, rfl, sameBut_refl s _⟩
  | succ n ih =>
    intro s hs
    obtain ⟨t, hrun, hDT, hST, hsame⟩ := ih s.tickTimers hs
    refine ⟨t, ?_, ?_, ?_, sameBut_trans (sameBut_tickTimers s) hsame⟩
    · simpa [List.replicate_succ, Command.performAll, perform_tick hs] using hrun
    · rw [hDT, tickTimers_DT_toNat]; omega
    · rw [hST, tickTimers_ST_toNat]; omega

/-! ### Reset values -/

/-- What create and reset leave, from any state, is the reset values of R37. -/
theorem resetAll_atReset (s : State) : s.resetAll.AtReset where
  font a h := by simp [State.reset, Memory.background, h]
  zeros a h _ := by simp [State.reset, Memory.background, Nat.not_lt.2 h]
  pc := rfl
  V r := by simp [reg, State.reset]
  I := rfl
  stack k := by simp [State.reset]
  sp := rfl
  fb k := by simp [State.reset]
  keys k := by simp [State.reset]
  DT := rfl
  ST := rfl
  status := rfl

/-- Settles O1: the reset state is what a reset makes of it, and both commands answer what a reset leaves. -/
theorem createAndResetLeaveResetValues : Obligations.CreateAndResetLeaveResetValues := by
  refine ⟨resetAll_atReset State.reset, fun s c hc => ⟨s.resetAll, ?_, resetAll_atReset s⟩⟩
  rcases hc with rfl | rfl <;> rfl

end Sys2Proof.Machine

/-! ### What STORE_REGS leaves in memory

The byte each stored register becomes, and the word two neighbouring ones make. -/

namespace Sys2Proof.Machine

open State

variable {s t : State} {x : RegIdx}

/-- A STORE_REGS whose bytes fit leaves `V[k]` at `I + k` for every `k` up to `x` (R130). -/
theorem exec_storeRegs_read (h : exec (.storeRegs x) s = .next t) (hfit : s.I.toNat + x.val < 4096) {k : RegIdx}
    (hk : k.val ≤ x.val) : t.mem.read (s.I.toNat + k.val) = s.reg k := by
  rw [exec_storeRegs_ok x hfit] at h; cases h
  have hin : s.I.toNat + k.val < 4096 := by omega
  have hbyte : (s.regsUpTo x)[k.val]? = some (s.reg k) := by rw [regsUpTo_getElem?, dif_pos hk]
  rw [setMem_mem, storeBytes_read, if_pos ⟨Nat.le_add_right .., hin⟩, Nat.add_sub_cancel_left, hbyte, Option.getD_some]

/-- Two neighbouring registers it stores are a word in memory, the lower one its high byte (R41, R52). -/
theorem exec_storeRegs_wordAt (h : exec (.storeRegs x) s = .next t) (hfit : s.I.toNat + x.val < 4096) {hi lo : RegIdx}
    (hnext : lo.val = hi.val + 1) (hlo : lo.val ≤ x.val) :
    t.wordAt (s.I.toNat + hi.val) = wordOfBytes (s.reg hi) (s.reg lo) := by
  have hhigh : t.mem.read (s.I.toNat + hi.val) = s.reg hi := exec_storeRegs_read h hfit (by omega)
  have hlow : t.mem.read (s.I.toNat + hi.val + 1) = s.reg lo := by
    rw [Nat.add_assoc, ← hnext]; exact exec_storeRegs_read h hfit hlo
  rw [wordAt, hhigh, hlow]

/-- Settles O48: a fetch from the first of two stored bytes is in range, and reads the word they make. -/
theorem storedWordIsFetchedNext : Obligations.StoredWordIsFetchedNext := by
  intro s t x a hexec hfit ha pc hpc
  have hx := x.isLt
  have hrange : (t.setPc pc).pc.toNat ≤ 4094 := by rw [setPc_pc]; omega
  refine ⟨⟨a, by omega⟩, ⟨a + 1, by omega⟩, rfl, rfl, ?_⟩
  rw [fetch_of_inRange hrange, ← exec_storeRegs_wordAt hexec hfit rfl ha, setPc_pc, hpc]
  rfl

end Sys2Proof.Machine

/-! ### The decoder by the rows of the opcode map

A word decodes to an instruction exactly where it selects the instruction's row of R61 and the operands are the word's
fields. The obligations on decoder and encoder follow from this and from what the encoder writes. -/

namespace Sys2Proof

open Laws.EncodeMatchesRow (nnn_row xnn_row minor_row nibbles_row draw_row)

variable {w m : Word} {i : Instr}

/-! The part of a word that a row's mask keeps, one lemma a mask of R61. -/

/-- A word is its major nibble and its 12-bit immediate (R56). -/
theorem eq_wordNnn (w : Word) : w = wordNnn (fieldD1 w) (fieldNnn w) := by
  apply BitVec.eq_of_toNat_eq
  rw [wordNnn_toNat, fieldD1_toNat, fieldNnn_toNat]
  omega

/-- A word is its major nibble, its register field and its low byte (R56). -/
theorem eq_wordXnn (w : Word) : w = wordXnn (fieldD1 w) (regOfNibble (fieldX w)) (fieldNn w) := by
  apply BitVec.eq_of_toNat_eq
  rw [wordXnn_toNat, regOfNibble_val, fieldD1_toNat, fieldX_toNat, fieldNn_toNat]
  omega

theorem selects_major_iff : selects w (m, 0xF000) = true ↔ wordNnn (fieldD1 w) 0 = m := by
  have hrow := nnn_row (fieldD1 w) (fieldNnn w)
  rw [← eq_wordNnn, selects, beq_iff_eq] at hrow
  rw [selects, beq_iff_eq, hrow]

theorem selects_minorNibble_iff :
    selects w (m, 0xF00F) = true ↔ wordOfNibbles (fieldD1 w) 0 0 (fieldN w) = m := by
  have hrow := nibbles_row (fieldD1 w) (fieldX w) (fieldY w) (fieldN w)
  rw [← eq_wordOfNibbles, selects, beq_iff_eq] at hrow
  rw [selects, beq_iff_eq, hrow]

theorem selects_minorByte_iff : selects w (m, 0xF0FF) = true ↔ wordXnn (fieldD1 w) 0 (fieldNn w) = m := by
  have hrow := minor_row (fieldD1 w) (regOfNibble (fieldX w)) (fieldNn w)
  rw [← eq_wordXnn, selects, beq_iff_eq] at hrow
  rw [selects, beq_iff_eq, hrow]

theorem selects_whole_iff : selects w (m, 0xFFFF) = true ↔ w = m := by
  rw [selects, beq_iff_eq]
  exact (BitVec.and_allOnes (x := w)).congr_left

theorem fieldD1_of_selects_major (h : selects w (m, 0xF000) = true) : fieldD1 w = fieldD1 m := by
  rw [← selects_major_iff.1 h, fieldD1_wordNnn]

theorem fields_of_selects_minorNibble (h : selects w (m, 0xF00F) = true) :
    fieldD1 w = fieldD1 m ∧ fieldN w = fieldN m := by
  rw [← selects_minorNibble_iff.1 h, fieldD1_wordOfNibbles, fieldN_wordOfNibbles]
  exact ⟨rfl, rfl⟩

theorem fields_of_selects_minorByte (h : selects w (m, 0xF0FF) = true) :
    fieldD1 w = fieldD1 m ∧ fieldNn w = fieldNn m := by
  rw [← selects_minorByte_iff.1 h, fieldD1_wordXnn, fieldNn_wordXnn]
  exact ⟨rfl, rfl⟩

/-! An instruction with the operands of a word. -/

/-- The instruction of the same row of R61 whose operands are the fields of the word `w` (R56, R57). -/
def Instr.withFields (w : Word) : Instr → Instr
  | .nop => .nop
  | .cls => .cls
  | .ret => .ret
  | .jmp _ => .jmp (fieldNnn w)
  | .call _ => .call (fieldNnn w)
  | .skipEqImm _ _ => .skipEqImm (regOfNibble (fieldX w)) (fieldNn w)
  | .skipNeqImm _ _ => .skipNeqImm (regOfNibble (fieldX w)) (fieldNn w)
  | .skipEqReg _ _ => .skipEqReg (regOfNibble (fieldX w)) (regOfNibble (fieldY w))
  | .loadImm _ _ => .loadImm (regOfNibble (fieldX w)) (fieldNn w)
  | .addImm _ _ => .addImm (regOfNibble (fieldX w)) (fieldNn w)
  | .mov _ _ => .mov (regOfNibble (fieldX w)) (regOfNibble (fieldY w))
  | .or _ _ => .or (regOfNibble (fieldX w)) (regOfNibble (fieldY w))
  | .and _ _ => .and (regOfNibble (fieldX w)) (regOfNibble (fieldY w))
  | .xor _ _ => .xor (regOfNibble (fieldX w)) (regOfNibble (fieldY w))
  | .add _ _ => .add (regOfNibble (fieldX w)) (regOfNibble (fieldY w))
  | .sub _ _ => .sub (regOfNibble (fieldX w)) (regOfNibble (fieldY w))
  | .shr _ => .shr (regOfNibble (fieldX w))
  | .subn _ _ => .subn (regOfNibble (fieldX w)) (regOfNibble (fieldY w))
  | .shl _ => .shl (regOfNibble (fieldX w))
  | .skipNeqReg _ _ => .skipNeqReg (regOfNibble (fieldX w)) (regOfNibble (fieldY w))
  | .loadI _ => .loadI (fieldNnn w)
  | .jmpOffset _ => .jmpOffset (fieldNnn w)
  | .rand _ _ => .rand (regOfNibble (fieldX w)) (fieldNn w)
  | .draw _ _ _ => .draw (regOfNibble (fieldX w)) (regOfNibble (fieldY w)) (fieldN w).toNat
  | .skipKey _ => .skipKey (regOfNibble (fieldX w))
  | .skipNokey _ => .skipNokey (regOfNibble (fieldX w))
  | .loadDt _ => .loadDt (regOfNibble (fieldX w))
  | .waitKey _ => .waitKey (regOfNibble (fieldX w))
  | .setDt _ => .setDt (regOfNibble (fieldX w))
  | .setSt _ => .setSt (regOfNibble (fieldX w))
  | .addI _ => .addI (regOfNibble (fieldX w))
  | .fontAddr _ => .fontAddr (regOfNibble (fieldX w))
  | .bcd _ => .bcd (regOfNibble (fieldX w))
  | .storeRegs _ => .storeRegs (regOfNibble (fieldX w))
  | .loadRegs _ => .loadRegs (regOfNibble (fieldX w))

@[simp] theorem tableRow_withFields (w : Word) (i : Instr) : tableRow (i.withFields w) = tableRow i := by
  cases i <;> rfl

/-- Operands read from a word fit their fields: DRAW's row count is a nibble (R58). -/
theorem wellFormed_withFields (w : Word) (i : Instr) : (i.withFields w).wellFormed = true := by
  cases i with
  | draw x y n => exact decide_eq_true (Nat.le_of_lt_succ (fieldN w).isLt)
  | _ => rfl

/-- A word that selects an instruction's row decodes to it, with the word's fields for operands (R60). -/
theorem decodeWord_of_selects (h : selects w (tableRow i) = true) : decodeWord w = .ok (i.withFields w) := by
  cases i with
  | nop | cls | ret => rw [selects_whole_iff.1 h]; rfl
  | jmp | call | skipEqImm | skipNeqImm | loadImm | addImm | loadI | jmpOffset | rand | draw =>
    rw [decodeWord, fieldD1_of_selects_major h]; rfl
  | skipEqReg | mov | or | and | xor | add | sub | shr | subn | shl | skipNeqReg =>
    obtain ⟨hd, hn⟩ := fields_of_selects_minorNibble h
    rw [decodeWord, hd, hn]; rfl
  | skipKey | skipNokey | loadDt | waitKey | setDt | setSt | addI | fontAddr | bcd | storeRegs | loadRegs =>
    obtain ⟨hd, hnn⟩ := fields_of_selects_minorByte h
    rw [decodeWord, hd, hnn]; rfl

/-! The encoder against the rows and the fields. -/

/-- The encoder writes a word of the instruction's row. -/
theorem selects_encode (i : Instr) : selects (encode i) (tableRow i) = true := by
  cases i with
  | nop | cls | ret => rfl
  | jmp nnn | call nnn | loadI nnn | jmpOffset nnn => exact nnn_row _ nnn
  | skipEqImm x nn | skipNeqImm x nn | loadImm x nn | addImm x nn | rand x nn => exact xnn_row _ x nn
  | skipEqReg | mov | or | and | xor | add | sub | shr | subn | shl | skipNeqReg => exact nibbles_row _ _ _ _
  | draw x y n => exact draw_row _ _ _
  | skipKey x | skipNokey x | loadDt x | waitKey x | setDt x | setSt x | addI x | fontAddr x | bcd x | storeRegs x
  | loadRegs x => exact minor_row _ x _

/-- The operands of a well-formed instruction stand in the fields of its word (R56, R57). -/
theorem withFields_encode (hi : i.wellFormed = true) : i.withFields (encode i) = i := by
  cases i with
  | draw x y n =>
    have hn : n < 16 := Nat.lt_succ_of_le (of_decide_eq_true hi)
    simp [Instr.withFields, encode, Nat.mod_eq_of_lt hn]
  | _ => simp [Instr.withFields, encode]

/-- Decoding the word of a well-formed instruction gives it back. -/
theorem decodeWord_encode (hi : i.wellFormed = true) : decodeWord (encode i) = .ok i := by
  rw [decodeWord_of_selects (selects_encode i), withFields_encode hi]

/-- Settles O3: the word selects the instruction's row and holds its operands, and its two bytes make the word. -/
theorem decodeOfEncodeIsInstruction : Obligations.DecodeOfEncodeIsInstruction := by
  intro i hi
  refine ⟨decodeWord_encode hi, fun rest => ?_⟩
  rw [decodeBytes, wordOfBytes_of_word, decodeWord_encode hi]
  rfl

/-! What a decoded word selects. -/

theorem selects_of_major {d : Nat} (hd : (fieldD1 w).toNat = d) :
    selects w (wordNnn (BitVec.ofNat 4 d) 0, 0xF000) = true := by
  rw [selects_major_iff, ← hd, BitVec.ofNat_toNat, BitVec.setWidth_eq]

theorem selects_of_minorNibble {d n : Nat} (hd : (fieldD1 w).toNat = d) (hn : (fieldN w).toNat = n) :
    selects w (wordOfNibbles (BitVec.ofNat 4 d) 0 0 (BitVec.ofNat 4 n), 0xF00F) = true := by
  rw [selects_minorNibble_iff, ← hd, ← hn, BitVec.ofNat_toNat, BitVec.ofNat_toNat, BitVec.setWidth_eq, BitVec.setWidth_eq]

theorem selects_of_minorByte {d : Nat} {nn : Byte} (hd : (fieldD1 w).toNat = d) (hnn : fieldNn w = nn) :
    selects w (wordXnn (BitVec.ofNat 4 d) 0 nn, 0xF0FF) = true := by
  rw [selects_minorByte_iff, ← hd, hnn, BitVec.ofNat_toNat, BitVec.setWidth_eq]

/-- What a word decodes to is an instruction of a row it selects, with the word's fields for operands: the branches of R60 by
what follows the major nibble (R57), the whole word, a nibble, a byte, or only operands. -/
theorem selects_of_decodeWord (h : decodeWord w = .ok i) :
    selects w (tableRow i) = true ∧ i.withFields w = i := by
  unfold decodeWord at h
  split at h
  case h_1 hd =>
    have hw : w = wordNnn 0 (fieldNnn w) := by
      have hd0 : fieldD1 w = 0 := BitVec.eq_of_toNat_eq hd
      rw [← hd0]; exact eq_wordNnn w
    split_ifs at h <;> next hnnn => cases h; rw [hnnn] at hw; exact ⟨selects_whole_iff.2 hw, rfl⟩
  case h_6 hd | h_9 hd | h_10 hd =>
    split at h <;> next hn => cases h <;> exact ⟨selects_of_minorNibble hd hn, rfl⟩
  case h_15 hd | h_16 hd =>
    split_ifs at h <;> next hnn => cases h; exact ⟨selects_of_minorByte hd hnn, rfl⟩
  case h_17 => cases h
  all_goals next hd => cases h; exact ⟨selects_of_major hd, rfl⟩

theorem tableRow_mem_opcodeTable (i : Instr) : tableRow i ∈ opcodeTable := by
  cases i <;> exact List.mem_of_elem_eq_true rfl

theorem mem_opcodeTable_iff {row : Word × Word} : row ∈ opcodeTable ↔ ∃ i, tableRow i = row := by
  constructor
  · intro h
    obtain ⟨i, -, hi⟩ := List.mem_map.1 h
    exact ⟨i, hi⟩
  · rintro ⟨i, rfl⟩
    exact tableRow_mem_opcodeTable i

/-- Settles O4: a selected row gives the instruction decoded, so two of them are that instruction's row. -/
theorem decodeSelectsExactlyOneTableRow : Obligations.DecodeSelectsExactlyOneTableRow := by
  intro w
  simp only [mem_opcodeTable_iff]
  refine ⟨fun i h => (selects_of_decodeWord h).1, ⟨?_, ?_⟩, ?_⟩
  · rintro ⟨_, ⟨i, rfl⟩, h⟩
    exact ⟨_, decodeWord_of_selects h⟩
  · rintro ⟨i, h⟩
    exact ⟨_, ⟨i, rfl⟩, (selects_of_decodeWord h).1⟩
  · rintro _ ⟨i, rfl⟩ _ ⟨j, rfl⟩ hi hj
    have hij : i.withFields w = j.withFields w :=
      Except.ok.inj ((decodeWord_of_selects hi).symm.trans (decodeWord_of_selects hj))
    rw [← tableRow_withFields w i, hij, tableRow_withFields]

/-- Settles O7, by evaluating the decoder. -/
theorem specWordsDecode : Obligations.SpecWordsDecode :=
  ⟨rfl, rfl, rfl, rfl, rfl, rfl, rfl, rfl, rfl, rfl, rfl, rfl⟩

/-! The encoder on a decoded instruction. -/

/-- The mask 0xFF0F clears the nibble that SHR and SHL ignore (R62). -/
theorem and_FF0F (w : Word) : w &&& 0xFF0F = wordOfNibbles (fieldD1 w) (fieldX w) 0 (fieldN w) := by
  have hmask (d a b n : BitVec 4) : wordOfNibbles d a b n &&&
      (BitVec.allOnes 4 ++ BitVec.allOnes 4 ++ (0 : BitVec 4) ++ BitVec.allOnes 4) = wordOfNibbles d a 0 n := by
    rw [wordOfNibbles, BitVec.and_append, BitVec.and_append, BitVec.and_append]
    simp only [BitVec.and_allOnes]
    simp [wordOfNibbles]
  have h := hmask (fieldD1 w) (fieldX w) (fieldY w) (fieldN w)
  rw [← eq_wordOfNibbles] at h
  exact h

/-- Outside SHR and SHL, every nibble of a word is fixed by its row or is an operand of its instruction (R62). -/
theorem encode_withFields (h : selects w (tableRow i) = true) (hi : ∀ x, i ≠ .shr x ∧ i ≠ .shl x) :
    encode (i.withFields w) = w := by
  have hnnn := eq_wordNnn w
  have hxnn := eq_wordXnn w
  have hxyn := eq_wordOfNibbles w
  cases i with
  | nop | cls | ret => exact (selects_whole_iff.1 h).symm
  | jmp | call | loadI | jmpOffset =>
    rw [fieldD1_of_selects_major h] at hnnn
    exact hnnn.symm
  | skipEqImm | skipNeqImm | loadImm | addImm | rand =>
    rw [fieldD1_of_selects_major h] at hxnn
    exact hxnn.symm
  | draw =>
    have hd : fieldD1 w = 0xD := fieldD1_of_selects_major h
    rw [hd] at hxyn
    simpa [encode, Instr.withFields] using hxyn.symm
  | skipEqReg | mov | or | and | xor | add | sub | subn | skipNeqReg =>
    obtain ⟨hd, hn⟩ := fields_of_selects_minorNibble h
    rw [hd, hn] at hxyn
    exact hxyn.symm
  | shr x => exact absurd rfl (hi x).1
  | shl x => exact absurd rfl (hi x).2
  | skipKey | skipNokey | loadDt | waitKey | setDt | setSt | addI | fontAddr | bcd | storeRegs | loadRegs =>
    obtain ⟨hd, hnn⟩ := fields_of_selects_minorByte h
    rw [hd, hnn] at hxnn
    exact hxnn.symm

/-- SHR and SHL are encoded with y = 0 (R66). -/
theorem encode_withFields_shift (h : selects w (tableRow i) = true) (hi : ∃ x, i = .shr x ∨ i = .shl x) :
    encode (i.withFields w) = w &&& 0xFF0F := by
  obtain ⟨x, rfl | rfl⟩ := hi <;>
  · obtain ⟨hd, hn⟩ := fields_of_selects_minorNibble h
    rw [and_FF0F, hd, hn]
    rfl

/-- Settles O5: a decoded instruction has the word's fields for operands, so it encodes to what those make. -/
theorem encodeOfDecodeIsWord : Obligations.EncodeOfDecodeIsWord := by
  intro w i h
  obtain ⟨hrow, hfields⟩ := selects_of_decodeWord h
  have hwf := wellFormed_withFields w i
  have hword := encode_withFields hrow
  have hshift := encode_withFields_shift hrow
  rw [hfields] at hwf hword hshift
  exact ⟨hwf, hword, hshift⟩

/-! The illegal words. -/

theorem fieldNn_eq_iff (b : Byte) : fieldNn w = b ↔ w.toNat % 256 = b.toNat := by
  rw [← BitVec.toNat_inj, fieldNn_toNat]

theorem fieldNnn_eq_iff (a : Addr12) : fieldNnn w = a ↔ w.toNat % 4096 = a.toNat := by
  rw [← BitVec.toNat_inj, fieldNnn_toNat]

/-- A branch of R60 ends in an error where its pattern does not match and the patterns after it end in that error. -/
theorem ite_ok_eq_error_iff {c : Prop} [Decidable c] {r : Except DecodeError Instr} {e : DecodeError} :
    (if c then .ok i else r) = .error e ↔ ¬c ∧ r = .error e := by
  split <;> simp [*]

/-- Settles O6, one major nibble of R60 at a time: 0, the nibble groups 5, 8 and 9, the byte groups E and F, no nibble at all,
and those without an illegal word. -/
theorem illegalWordsAreExactly : Obligations.IllegalWordsAreExactly := by
  intro w
  have hd16 := (fieldD1 w).isLt
  have hn16 := (fieldN w).isLt
  rw [← fieldD1_toNat, ← fieldN_toNat]
  unfold decodeWord
  split
  case h_1 hd =>
    have hlow : w.toNat % 4096 = w.toNat := by rw [fieldD1_toNat] at hd; omega
    simp [hd, ite_ok_eq_error_iff, fieldNnn_eq_iff, hlow]
  case h_6 hd | h_10 hd => split <;> simp_all
  case h_9 hd =>
    split <;> simp [*]
    next => generalize (fieldN w).toNat = n at *; interval_cases n <;> simp_all
  case h_15 hd | h_16 hd => simp [hd, ite_ok_eq_error_iff, fieldNn_eq_iff]
  case h_17 => generalize (fieldD1 w).toNat = d at *; interval_cases d <;> contradiction
  all_goals next hd => simp [hd]

end Sys2Proof

/-! ### The step command

What a step makes of the fetch, the decoder and the execute phase, for every input byte; that it always answers; and that
RAND alone reads the input byte. -/

namespace Sys2Proof.Machine

open State

variable {s t : State} {i : Instr}

/-- Two stored bytes that decode to an instruction are the next instruction of a READY machine there (R74). -/
theorem nextInstr_of_decodeBytes {rest : List Byte} (hs : s.status = .ready) (hp : s.pc.toNat ≤ 4094)
    (hd : decodeBytes [s.mem.read s.pc.toNat, s.mem.read (s.pc.toNat + 1)] = .ok (i, rest)) : s.NextInstr i := by
  have hword : (decodeWord (s.wordAt s.pc.toNat)).map (fun j => (j, [])) = .ok (i, rest) := hd
  cases hw : decodeWord (s.wordAt s.pc.toNat) with
  | error e => rw [hw] at hword; cases hword
  | ok j => rw [hw] at hword; cases hword; exact ⟨hs, hp, hw⟩

/-- Settles O8: the bytes at the pc name the next instruction, whose execute phase the step is. -/
theorem stepRunsDecodedInstruction : Obligations.StepRunsDecodedInstruction :=
  fun _ _ hs hp hd => cycle_instr (nextInstr_of_decodeBytes hs hp hd)

/-- Settles O9: the two branches of the fetch, and the step where it fails. -/
theorem fetchReadsBigEndianWordInRange : Obligations.FetchReadsBigEndianWordInRange := by
  intro s
  refine ⟨fun hp => ⟨_, fetch_of_inRange hp, wordOfBytes_toNat _ _⟩, fun hp => ?_, fun hp => ?_, fun hs hp => ?_⟩
  · rw [fetch_eq, if_neg (by omega), hp]; rfl
  · rw [fetch_eq, if_neg (by omega), max_eq_left hp]
  · exact ⟨_, cycle_outOfRange hs (by omega), raiseFetch_status ..⟩

/-- Settles O10: a word that decodes to no instruction decodes to an error, on which the step raises its fault. -/
theorem stepOnIllegalWordHalts : Obligations.StepOnIllegalWordHalts := by
  intro s hs hp hillegal
  cases hd : decodeWord (s.wordAt s.pc.toNat) with
  | error e => exact ⟨_, cycle_illegal hs hp hd, raiseUnimplemented_status ..⟩
  | ok i => exact absurd hd (hillegal i)

/-- A step that changes nothing changes nothing however often it is taken. -/
theorem run_of_step_self (h : step s = .next s) (n : Nat) : Host.Core.run core n s = .next s := by
  induction n with
  | zero => rfl
  | succ n ih =>
    have hstep : core.step s = .next s := h
    simpa only [Host.Core.run, hstep] using ih

/-- Settles O26: the jump sets the pc to the value it has. -/
theorem selfJumpIsFixedPoint : Obligations.SelfJumpIsFixedPoint := by
  intro s nnn hi hself
  have htarget : zextNnn nnn = s.pc := by
    apply BitVec.eq_of_toNat_eq
    simp only [zextNnn, BitVec.toNat_setWidth]; omega
  have hstep : step s = .next s := by
    rw [step, cycle_instr hi, exec, execJmp, htarget]
    rfl
  exact run_of_step_self hstep

/-- Every execute phase answers a next state: a fault is one too (R137; log 4). -/
theorem exec_next (i : Instr) (s : State) : ∃ t, exec i s = .next t := by
  cases i with
  | ret => rw [exec, execRet]; split <;> exact ⟨_, rfl⟩
  | call => rw [exec, execCall]; split <;> exact ⟨_, rfl⟩
  | skipKey => rw [exec, execSkipKey]; split <;> exact ⟨_, rfl⟩
  | skipNokey => rw [exec, execSkipNokey]; split <;> exact ⟨_, rfl⟩
  | waitKey => rw [exec, execWaitKey]; split <;> exact ⟨_, rfl⟩
  | fontAddr => rw [exec, execFontAddr]; split <;> exact ⟨_, rfl⟩
  | _ => exact ⟨_, rfl⟩

/-- With the free byte of its draw the execute phase with an input byte is the plain one (log 2). -/
theorem execWith_rnd (i : Instr) (s : State) : execWith (Config.rnd s.draws) i s = exec i s := by
  cases i with
  | rand => rfl
  | _ => exact execWith_of_not_rand (by simp)

theorem execWith_next (b : Byte) (i : Instr) (s : State) : ∃ t, execWith b i s = .next t := by
  by_cases hrand : ∃ x nn, i = .rand x nn
  · obtain ⟨x, nn, rfl⟩ := hrand; exact ⟨_, rfl⟩
  · rw [execWith_of_not_rand (by simpa using hrand)]; exact exec_next i s

/-- A cycle answers a next state where its execute phase does. -/
theorem cycle_next {run : Instr → State → Host.Outcome State Fault Refusal} (hrun : ∀ i s, ∃ t, run i s = .next t)
    (s : State) : ∃ t, cycle run s = .next t := by
  rcases cycle_cases run s with ⟨r, -, hc⟩ | ⟨-, -, hc⟩ | ⟨-, -, -, hc⟩ | ⟨i, -, hc⟩ <;> rw [hc]
  · exact ⟨_, rfl⟩
  · exact ⟨_, rfl⟩
  · exact ⟨_, rfl⟩
  · exact hrun i s.skip

/-- A cycle depends on its execute phase only at the next instruction. -/
theorem cycle_congr {run run' : Instr → State → Host.Outcome State Fault Refusal}
    (h : ∀ i, s.NextInstr i → run i s.skip = run' i s.skip) : cycle run s = cycle run' s := by
  rcases cycle_cases run s with ⟨r, hs, hc⟩ | ⟨hs, hp, hc⟩ | ⟨hs, hp, ⟨e, hd⟩, hc⟩ | ⟨i, hi, hc⟩ <;> rw [hc]
  · exact (cycle_halted hs).symm
  · exact (cycle_outOfRange hs (by omega)).symm
  · exact (cycle_illegal hs hp hd).symm
  · rw [h i hi, cycle_instr hi]

theorem stepWith_next (b : Byte) (s : State) : ∃ t, stepWith b s = .next t := cycle_next (execWith_next b) s

/-- A latch answers OK exactly where it is READY (R79; log 13). -/
theorem reply_eq_ok_iff (st : Status) : st.reply = .ok ↔ st = .ready := by cases st <;> simp [Status.reply]

/-- The step command answers the state of the step and the result its latch says. -/
theorem perform_step {b : Byte} (h : stepWith b s = .next t) :
    Command.perform (.step b) s = .next (t, t.status.reply) := by
  simp [Command.perform, h, answer]

/-- Settles O12: exec answers arm by arm, a step through the cases of its cycle, the step command by its latch. -/
theorem everyStepAnswersNextState : Obligations.EveryStepAnswersNextState := by
  refine ⟨exec_next, cycle_next exec_next, fun s b => ?_⟩
  obtain ⟨t, ht⟩ := stepWith_next b s
  exact ⟨t, perform_step ht, reply_eq_ok_iff t.status⟩

/-- A step command at RAND, with its input byte (R113). -/
theorem stepWith_rand {x : RegIdx} {nn : Byte} (b : Byte) (h : s.NextInstr (.rand x nn)) :
    stepWith b s = .next (randWith b x nn s.skip) := cycle_instr h

/-- Settles O13: a cycle depends on its execute phase at the next instruction alone, and that reads the input byte only for
RAND. -/
theorem onlyRandReadsInputByte : Obligations.OnlyRandReadsInputByte := by
  refine ⟨fun s => cycle_congr fun i _ => (execWith_rnd i s.skip).symm, fun s b b' hnot => cycle_congr fun i hi => ?_,
    fun s b x nn hi => ⟨_, stepWith_rand b hi, ?_, rfl, ?_, ?_⟩⟩
  · have hrand : ∀ x nn, i ≠ .rand x nn := by rintro x nn rfl; exact hnot x nn hi
    rw [execWith_of_not_rand hrand, execWith_of_not_rand hrand]
  · simp [randWith]
  · exact sameRegsBut_setReg s.skip x (b &&& nn)
  · constructor <;> simp [randWith]

end Sys2Proof.Machine

/-! ### The other host commands

What load, tick, set_key and display do from READY, what each one answers, and that a HALTED machine ignores them. -/

namespace Sys2Proof.Machine

open State

variable {s t : State} {act : State → State} {r : FaultRecord}

theorem whenReady_ready (h : s.status = .ready) : s.whenReady act = act s := by simp [whenReady, h]

theorem whenReady_halted (h : s.status = .halted r) : s.whenReady act = s := by simp [whenReady, h]

theorem answer_ready (h : t.status = .ready) : answer t = .next (t, .ok) := by simp [answer, h, Status.reply]

theorem answer_halted (h : t.status = .halted r) : answer t = .next (t, .fault r) := by simp [answer, h, Status.reply]

/-- A command that acts while READY, on an act that ends READY. -/
theorem answer_whenReady_ok (hs : s.status = .ready) (ht : (act s).status = .ready) :
    answer (s.whenReady act) = .next (act s, .ok) := by rw [whenReady_ready hs, answer_ready ht]

/-- A command that acts while READY, on an act that raises a fault. -/
theorem answer_whenReady_fault (hs : s.status = .ready) (ht : (act s).status = .halted r) :
    answer (s.whenReady act) = .next (act s, .fault r) := by rw [whenReady_ready hs, answer_halted ht]

/-- A HALTED machine ignores a command that acts while READY, and answers its record (R83). -/
theorem answer_whenReady_halted (h : s.status = .halted r) : answer (s.whenReady act) = .next (s, .fault r) := by
  rw [whenReady_halted h, answer_halted h]

/-- A HALTED machine ignores a step command, and answers its record (R83). -/
theorem perform_step_halted (b : Byte) (h : s.status = .halted r) :
    Command.perform (.step b) s = .next (s, .fault r) := by
  rw [perform_step (cycle_halted h), h]; rfl

/-- Settles O11: step by the first case of its cycle, the commands that act while READY by one lemma, and the rest by what
they are. -/
theorem haltedMachineIgnoresCommands : Obligations.HaltedMachineIgnoresCommands := fun s _ h =>
  ⟨cycle_halted h, fun b => perform_step_halted b h, answer_whenReady_halted h, fun _ => answer_whenReady_halted h,
    fun _ _ => answer_whenReady_halted h, rfl, ⟨s.resetAll, rfl, rfl⟩, ⟨s.resetAll, rfl, rfl⟩⟩

/-- Every host command answers (R69). -/
theorem perform_next (c : Command) (s : State) : ∃ t reply, c.perform s = .next (t, reply) := by
  cases c with
  | step b =>
    obtain ⟨t, ht⟩ := stepWith_next b s
    exact ⟨_, _, perform_step ht⟩
  | _ => exact ⟨_, _, rfl⟩

/-- Settles O19: every command answers, and what it answers has the invariant. -/
theorem commandsKeepInvariant : Obligations.CommandsKeepInvariant := by
  intro c s hs
  obtain ⟨t, reply, h⟩ := perform_next c s
  exact ⟨t, reply, h, perform_inv hs h⟩

/-! load and set_key, each by its two branches. -/

theorem loadProgram_of_fits {bytes : List Byte} (h : bytes.length ≤ 3584) :
    s.loadProgram bytes = s.setMem (writeBytes s.mem 0x200 bytes) := if_neg (Nat.not_lt.2 h)

theorem loadProgram_of_overflow {bytes : List Byte} (h : 3584 < bytes.length) :
    s.loadProgram bytes = s.raiseCommand .loadOverflow .load bytes.length := if_pos h

theorem setKey_of_lt {index : Nat} (h : index < 16) (pressed : Bool) :
    s.setKey index pressed = s.setKeySlot ⟨index, h⟩ pressed := dif_pos h

theorem setKey_of_ge {index : Nat} (h : 16 ≤ index) (pressed : Bool) :
    s.setKey index pressed = s.raiseCommand .keyIndexBounds .setKey index := dif_neg (Nat.not_lt.2 h)

/-- A command's fault changes the latch alone (R138). -/
theorem sameBut_raiseCommand (s : State) (code : FaultCode) (command : FaultCommand) (info : Nat) :
    SameBut [.status] s (s.raiseCommand code command info) := sameBut_setStatus s _

/-- The bytes written from `a` on stand there (R73). -/
theorem writeBytes_read_in (m : Memory) (a : Nat) {vs : List Byte} {k : Nat} (h : k < vs.length) :
    (writeBytes m a vs).read (a + k) = vs[k] := by
  simp [writeBytes_read, h]

/-- Bytes outside those written keep their values (R73). -/
theorem sameBytesOutside_writeBytes (s : State) (a : Nat) (vs : List Byte) :
    SameBytesOutside a vs.length s (s.setMem (writeBytes s.mem a vs)) := by
  intro b hb
  rw [setMem_mem, writeBytes_read]
  split
  · rw [List.getElem?_eq_none (by omega), Option.getD_none]
  · rfl

/-- Settles O49: load by its two branches, and R83. -/
theorem loadWritesProgramSpaceOrHalts : Obligations.LoadWritesProgramSpaceOrHalts := by
  intro s bytes
  refine ⟨fun hs hfits => ?_, fun hs hover => ?_, fun r h => answer_whenReady_halted h⟩
  · have hload := loadProgram_of_fits (s := s) hfits
    refine ⟨s.loadProgram bytes, answer_whenReady_ok hs (by rw [hload]; exact hs), ?_⟩
    rw [hload]
    exact ⟨fun k hk => writeBytes_read_in s.mem 0x200 hk, sameBytesOutside_writeBytes s 0x200 bytes, sameBut_setMem s _⟩
  · have hload := loadProgram_of_overflow (s := s) hover
    have hstatus := (congrArg State.status hload).trans (raiseCommand_status ..)
    exact ⟨_, _, answer_whenReady_fault hs hstatus, rfl, hstatus, hload ▸ sameBut_raiseCommand s _ _ _⟩

theorem tickTimers_DT (s : State) : s.tickTimers.DT = countDown s.DT := rfl

theorem tickTimers_ST (s : State) : s.tickTimers.ST = countDown s.ST := rfl

/-- A timer at zero stays there (R80). -/
theorem countDown_zero : countDown 0 = 0 := rfl

/-- Settles O50: each timer counts down by one, floored at zero. -/
theorem tickDecrementsNonzeroTimers : Obligations.TickDecrementsNonzeroTimers := by
  intro s
  refine ⟨fun hs => ⟨s.tickTimers, perform_tick hs, fun _ => tickTimers_DT_toNat s, fun h => ?_,
    fun _ => tickTimers_ST_toNat s, fun h => ?_, sameBut_tickTimers s⟩, fun r h => answer_whenReady_halted h⟩
  · rw [tickTimers_DT, h, countDown_zero]
  · rw [tickTimers_ST, h, countDown_zero]

/-- Settles O52: the grid is the framebuffer, whose cells are numbered as R27 has it. -/
theorem displayReturnsFramebufferGrid : Obligations.DisplayReturnsFramebufferGrid :=
  fun s => ⟨s.fb, rfl, fun px py => ⟨⟨px.val + 64 * py.val, by omega⟩, rfl, rfl⟩⟩

/-- What every key slot holds after one was set (R82). -/
theorem setKeySlot_getElem (s : State) (k j : Fin 16) (pressed : Bool) :
    (s.setKeySlot k pressed).keys[j] = if j = k then pressed else s.keys[j] := by
  simp [Vector.getElem_set, Fin.ext_iff, eq_comm]

/-- Settles O53: set_key by its two branches, and R83. -/
theorem setKeySetsOneSlotOrHalts : Obligations.SetKeySetsOneSlotOrHalts := by
  intro s index pressed
  refine ⟨fun hs k hk => ?_, fun hs hbad => ?_, fun r h => answer_whenReady_halted h⟩
  · subst hk
    have hset : s.setKey k.val pressed = s.setKeySlot k pressed := setKey_of_lt k.isLt pressed
    refine ⟨s.setKey k.val pressed, answer_whenReady_ok hs (by rw [hset]; exact hs), ?_⟩
    rw [hset]
    exact ⟨by rw [setKeySlot_getElem, if_pos rfl], fun j hj => by rw [setKeySlot_getElem, if_neg hj],
      sameBut_setKeySlot s k pressed⟩
  · have hset := setKey_of_ge (s := s) hbad pressed
    have hstatus := (congrArg State.status hset).trans (raiseCommand_status ..)
    exact ⟨_, _, answer_whenReady_fault hs hstatus, rfl, hstatus, hset ▸ sameBut_raiseCommand s _ _ _⟩

end Sys2Proof.Machine

/-! ### Flow: group 0 and the jumps

What a CALL and a RET that raise no fault leave, from any state; the return they make together; and the instructions of the
family that write one field. -/

namespace Sys2Proof.Machine

open State

variable {s t : State}

/-! CALL, RET, and a RET after a CALL. -/

theorem zextNnn_toNat (nnn : Addr12) : (zextNnn nnn).toNat = nnn.toNat := BitVec.toNat_setWidth_of_le (by decide)

/-- CALL with a free entry, field by field (R91, R26). -/
theorem exec_call_pushes (nnn : Addr12) (h : s.sp.val < 16) : ∃ t, exec (.call nnn) s = .next t ∧
    t.stack = s.stack.set s.sp.val s.pc ∧ t.sp.val = s.sp.val + 1 ∧ t.pc = zextNnn nnn ∧ SameBut [.stack, .sp, .pc] s t :=
  ⟨_, exec_call_ok nnn h, rfl, rfl, rfl, by constructor <;> simp [reg]⟩

/-- RET with an entry pushed, field by field (R89, R26). -/
theorem exec_ret_pops (h : 0 < s.sp.val) : ∃ t, exec .ret s = .next t ∧
    t.sp.val = s.sp.val - 1 ∧ t.pc = s.stack[s.sp.val - 1]'(sp_pred_lt s) ∧ SameBut [.sp, .pc] s t :=
  ⟨_, exec_ret_ok h, rfl, rfl, by constructor <;> simp [reg]⟩

/-- Settles O23: the push writes one entry of the stack; with 16 entries pushed the fault's record is the model's. -/
theorem callPushesOrOverflows : Obligations.CallPushesOrOverflows := by
  intro s nnn
  refine ⟨fun hfree => ?_, fun hfull => ⟨_, exec_call_full nnn hfull, raiseExec_status ..⟩⟩
  obtain ⟨t, hexec, hstack, hsp, hpc, hframe⟩ := exec_call_pushes nnn hfree
  refine ⟨t, hexec, ?_, fun k hk => ?_, hsp, by rw [hpc, zextNnn_toNat], hframe⟩
  · simp [hstack]
  · simp [hstack, hk.symm]

/-- Settles O24: the pop by its two branches; the record's word is RET's own. -/
theorem retPopsOrUnderflows : Obligations.RetPopsOrUnderflows :=
  fun _ => ⟨exec_ret_pops, fun hempty => ⟨_, exec_ret_empty hempty, raiseExec_status ..⟩⟩

/-- A run takes its first step and goes on from there. -/
theorem run_succ_of_step (h : step s = .next t) (n : Nat) :
    Host.Core.run core (n + 1) s = Host.Core.run core n t := by
  have hstep : core.step s = .next t := h
  simp only [Host.Core.run, hstep]

/-- A frame that excepts `sp` says the same of `sp` where it kept its value. -/
theorem sameBut_of_sp_eq {fields : List Field} (h : SameBut (.sp :: fields) s t) (hsp : t.sp = s.sp) :
    SameBut fields s t where
  mem hf := h.mem (by simpa using hf)
  pc hf := h.pc (by simpa using hf)
  V hf := h.V (by simpa using hf)
  I hf := h.I (by simpa using hf)
  stack hf := h.stack (by simpa using hf)
  sp _ := hsp
  fb hf := h.fb (by simpa using hf)
  keys hf := h.keys (by simpa using hf)
  DT hf := h.DT (by simpa using hf)
  ST hf := h.ST (by simpa using hf)
  status hf := h.status (by simpa using hf)
  draws hf := h.draws (by simpa using hf)

/-- A step writes the pc and what its instruction writes. -/
theorem sameBut_of_skip {fields : List Field} (hpc : .pc ∈ fields) (h : SameBut fields s.skip t) : SameBut fields s t :=
  sameBut_trans (sameBut_mono (by simpa using hpc) (sameBut_setPc s _)) h

/-- A step that executes CALL with a free entry (R74, R91). -/
theorem step_call_pushes {nnn : Addr12} (hi : s.NextInstr (.call nnn)) (h : s.sp.val < 16) : ∃ t, step s = .next t ∧
    t.stack = s.stack.set s.sp.val (s.pc + 2) ∧ t.sp.val = s.sp.val + 1 ∧ t.pc = zextNnn nnn ∧
    SameBut [.stack, .sp, .pc] s t := by
  obtain ⟨t, hexec, hstack, hsp, hpc, hframe⟩ := exec_call_pushes (s := s.skip) nnn h
  exact ⟨t, (cycle_instr hi).trans hexec, hstack, hsp, hpc, sameBut_of_skip (by simp) hframe⟩

/-- A step that executes RET with an entry pushed (R74, R89). -/
theorem step_ret_pops (hi : s.NextInstr .ret) (h : 0 < s.sp.val) : ∃ t, step s = .next t ∧
    t.sp.val = s.sp.val - 1 ∧ t.pc = s.stack[s.sp.val - 1]'(sp_pred_lt s) ∧ SameBut [.sp, .pc] s t := by
  obtain ⟨t, hexec, hsp, hpc, hframe⟩ := exec_ret_pops (s := s.skip) h
  exact ⟨t, (cycle_instr hi).trans hexec, hsp, hpc, sameBut_of_skip (by simp) hframe⟩

/-- Settles O25: the CALL's step leaves the RET to be fetched and the return address on top; the RET's step takes it. -/
theorem callThenRetReturnsAfterCall : Obligations.CallThenRetReturnsAfterCall := by
  intro s nnn hcall hfree hrange hword
  obtain ⟨u, hcallStep, hstack, husp, hupc, hcallFrame⟩ := step_call_pushes hcall hfree
  have hret : u.NextInstr .ret := by
    have htarget : u.pc.toNat = nnn.toNat := by rw [hupc, zextNnn_toNat]
    have hmem := hcallFrame.mem (by simp)
    have hfetched : u.wordAt u.pc.toNat = 0x00EE := by rw [htarget, ← hword, wordAt, hmem, hmem, wordAt]
    exact ⟨(hcallFrame.status (by simp)).trans hcall.ready, htarget ▸ hrange, hfetched ▸ rfl⟩
  obtain ⟨t, hretStep, htsp, htpc, hretFrame⟩ := step_ret_pops hret (by omega)
  have hsp : t.sp = s.sp := Fin.ext (by omega)
  have hframe : SameBut [.sp, .pc, .stack] s t :=
    sameBut_trans (sameBut_mono (by simp) hcallFrame) (sameBut_mono (by simp) hretFrame)
  refine ⟨t, ?_, ?_, fun k hk => ?_, sameBut_of_sp_eq hframe hsp⟩
  · rw [run_succ_of_step hcallStep, run_succ_of_step hretStep]
    rfl
  · simp [htpc, husp, hstack]
  · simp [hretFrame.stack (by simp), hstack, hk.symm]

/-! The instructions that write at most one field. -/

/-- The words of an instruction's row decode to it, with the word's fields for operands (R60, R61). -/
theorem encodes_tableRow (i : Instr) : Encodes (tableRow i).1 (tableRow i).2 i.withFields :=
  fun _ h => decodeWord_of_selects (beq_iff_eq.2 h)

theorem gridCell_unlit (px : Fin 64) (py : Fin 32) : gridCell (Vector.replicate 2048 false) px py = false := by
  simp [gridCell]

/-- Settles O21: the cleared framebuffer is the grid display returns. -/
theorem nopChangesNothingClsClearsScreen : Obligations.NopChangesNothingClsClearsScreen :=
  ⟨encodes_tableRow .nop, encodes_tableRow .cls, fun s => ⟨rfl, _, rfl, gridCell_unlit, sameBut_setFb s _, _, rfl,
    gridCell_unlit⟩⟩

/-- Settles O22: a zero-extended address is its number, and `V[0] + nnn` is below 65536. -/
theorem jumpsAndIndexLoadWriteExactAddress : Obligations.JumpsAndIndexLoadWriteExactAddress := by
  refine ⟨encodes_tableRow (.jmp 0), encodes_tableRow (.loadI 0), encodes_tableRow (.jmpOffset 0), fun s nnn =>
    ⟨⟨_, rfl, zextNnn_toNat nnn, sameBut_setPc s _⟩, ⟨_, rfl, zextNnn_toNat nnn, sameBut_setI s _⟩,
      ⟨_, rfl, ?_, sameBut_setPc s _⟩⟩⟩
  have hv := (s.reg 0).isLt
  have hn := nnn.isLt
  rw [setPc_pc, zextByte_add_zextNnn, BitVec.toNat_ofNat]
  omega

end Sys2Proof.Machine

/-! ### Skips

The pc of a compare skip, by its condition. -/

namespace Sys2Proof.Machine

open State

/-- A skip adds 2 to the pc where its condition holds (R92 to R95). -/
theorem skipIf_pc (s : State) (c : Bool) : (s.skipIf c).pc = if c then s.pc + 2 else s.pc := by
  rw [skipIf_eq, setPc_pc]

/-- A skip on equality, of registers or of a register and a byte (R92, R94). -/
theorem skipIf_beq_pc (s : State) (a b : Byte) : (s.skipIf (a == b)).pc = if a = b then s.pc + 2 else s.pc := by
  simp only [skipIf_pc, beq_iff_eq]

/-- A skip on inequality stays exactly where the skip on equality moves (R93, R95). -/
theorem skipIf_bne_pc (s : State) (a b : Byte) : (s.skipIf (a != b)).pc = if a = b then s.pc else s.pc + 2 := by
  simp only [skipIf_pc, bne_iff_ne, ne_eq, ite_not]

/-- Settles O27: each skip is `skipIf` on its comparison, which sets the pc alone. -/
theorem skipsAddTwoExactlyWhenConditionHolds : Obligations.SkipsAddTwoExactlyWhenConditionHolds :=
  ⟨encodes_tableRow (.skipEqImm 0 0), encodes_tableRow (.skipNeqImm 0 0), encodes_tableRow (.skipEqReg 0 0),
    encodes_tableRow (.skipNeqReg 0 0), fun s _ y nn =>
    ⟨⟨_, rfl, skipIf_beq_pc s _ nn, sameBut_skipIf _⟩, ⟨_, rfl, skipIf_bne_pc s _ nn, sameBut_skipIf _⟩,
      ⟨_, rfl, skipIf_beq_pc s _ (s.reg y), sameBut_skipIf _⟩, ⟨_, rfl, skipIf_bne_pc s _ (s.reg y), sameBut_skipIf _⟩⟩⟩

end Sys2Proof.Machine

/-! ### Register with immediate

The number of the wrapped sum, which ADD_IMM stores. -/

namespace Sys2Proof.Machine

open State

/-- The wrapped sum is the exact sum modulo 256 (R15). -/
theorem addResult_toNat (a b : Byte) : (addResult a b).toNat = (a.toNat + b.toNat) % 256 := BitVec.toNat_ofNat _ 8

/-- Settles O28: both instructions are one `setReg` on `V[x]`, of the immediate or of the wrapped sum. -/
theorem immediateLoadAndAddWriteOnlyX : Obligations.ImmediateLoadAndAddWriteOnlyX :=
  ⟨encodes_tableRow (.loadImm 0 0), encodes_tableRow (.addImm 0 0), fun s x nn =>
    ⟨⟨_, rfl, setReg_reg_self s x nn, sameRegsBut_setReg s x nn, sameBut_setReg s x nn⟩,
      ⟨_, rfl, by rw [setReg_reg_self, addResult_toNat], sameRegsBut_setReg s x _, sameBut_setReg s x _⟩⟩⟩

end Sys2Proof.Machine

/-! ### Arithmetic and logic

What VF and the result register read after result and flag were written, and the numbers results and flags are. -/

namespace Sys2Proof.Machine

open State

/-- VF is written last, so it reads as the flag whatever register the result went to (R98). -/
@[simp] theorem setRegThenFlag_reg_VF (s : State) (x : RegIdx) (v : Byte) (f : Bool) :
    (s.setRegThenFlag x v f).reg VF = flagByte f := setReg_reg_self _ VF _

/-- The result stands in every register but VF (R98). -/
theorem setRegThenFlag_reg_of_ne (s : State) {x : RegIdx} (v : Byte) (f : Bool) (hx : x ≠ VF) :
    (s.setRegThenFlag x v f).reg x = v := by
  rw [setRegThenFlag_reg, if_neg hx, if_pos rfl]

theorem flagByte_toNat (f : Bool) : (flagByte f).toNat = f.toNat := by cases f <;> rfl

/-- The carry is 1 where the exact sum needs a ninth bit (R15, R105). -/
theorem flagByte_addCarry_toNat (a b : Byte) :
    (flagByte (addCarry a b)).toNat = if 256 ≤ a.toNat + b.toNat then 1 else 0 := by
  rw [flagByte_toNat, addCarry, Bool.toNat, Bool.cond_decide]

/-- The wrapped difference is the exact difference modulo 256, with a remainder that is never negative (R15, R106). -/
theorem subResult_toNat (a b : Byte) :
    ((subResult a b).toNat : Int) = ((a.toNat : Int) - (b.toNat : Int)) % 256 := by
  rw [subResult, BitVec.toNat_ofInt]
  exact Int.toNat_of_nonneg (Int.emod_nonneg _ (by decide))

/-- The exact difference is negative exactly where the minuend is below the subtrahend (R15, R106). -/
theorem subBorrow_eq (a b : Byte) : subBorrow a b = decide (a.toNat < b.toNat) := decide_eq_decide.2 (by omega)

/-- NOT borrow: 0 where the minuend is below the subtrahend, 1 where it is not, equality among it (R106, R108). -/
theorem flagByte_not_subBorrow_toNat (a b : Byte) :
    (flagByte (!subBorrow a b)).toNat = if a.toNat < b.toNat then 0 else 1 := by
  rw [flagByte_toNat, subBorrow_eq, Bool.toNat, Bool.cond_not, Bool.cond_decide]

/-- Half of a byte is a byte (R107). -/
theorem shrResult_toNat (a : Byte) : (shrResult a).toNat = a.toNat / 2 := by
  have := a.isLt
  rw [shrResult, BitVec.toNat_ofNat]
  omega

/-- Twice a byte, modulo 256 (R109). -/
theorem shlResult_toNat (a : Byte) : (shlResult a).toNat = a.toNat * 2 % 256 := BitVec.toNat_ofNat _ 8

/-- Bit k of a byte as the number VF holds. -/
theorem flagByte_getLsbD_toNat (a : Byte) (k : Nat) : (flagByte (a.getLsbD k)).toNat = a.toNat / 2 ^ k % 2 := by
  rw [flagByte_toNat, BitVec.getLsbD, Nat.toNat_testBit]

/-- SHR shifts out the lowest bit (R107). -/
theorem flagByte_shrFlag_toNat (a : Byte) : (flagByte (shrFlag a)).toNat = a.toNat % 2 := by
  rw [shrFlag, flagByte_getLsbD_toNat, Nat.pow_zero, Nat.div_one]

/-- SHL shifts out the highest bit: no bit of a byte is above it (R109). -/
theorem flagByte_shlFlag_toNat (a : Byte) : (flagByte (shlFlag a)).toNat = a.toNat / 128 := by
  have := a.isLt
  rw [shlFlag, flagByte_getLsbD_toNat]
  omega

/-- What ADD, SUB, SHR, SUBN and SHL share: after a result and a flag were written, `V[x]` reads as the result where it is
not VF, VF as the flag, and nothing else changed (R98). `num` is the number a register's value is compared by. -/
theorem setRegThenFlag_next {α : Type} (num : Byte → α) {v : Byte} {f : Bool} {m : α} {n : Nat} (s : State) (x : RegIdx)
    (hv : num v = m) (hf : (flagByte f).toNat = n) :
    ∃ t, (.next (s.setRegThenFlag x v f) : Host.Outcome State Fault Refusal) = .next t ∧
      (x ≠ VF → num (t.reg x) = m) ∧ (t.reg VF).toNat = n ∧ SameRegsBut [x, VF] s t ∧ SameBut [.V] s t := by
  refine ⟨_, rfl, fun hx => ?_, ?_, sameRegsBut_setRegThenFlag s x v f, sameBut_setRegThenFlag s x v f⟩
  · rw [setRegThenFlag_reg_of_ne s v f hx, hv]
  · rw [setRegThenFlag_reg_VF, hf]

/-- Settles O30: result then flag, where the result is the wrapped sum and the flag the carry, both of the old values. -/
theorem addWritesWrappedSumThenCarry : Obligations.AddWritesWrappedSumThenCarry :=
  ⟨encodes_tableRow (.add 0 0), fun s x _ =>
    setRegThenFlag_next BitVec.toNat s x (addResult_toNat _ _) (flagByte_addCarry_toNat _ _)⟩

/-- Settles O31: SUB and SUBN are one subtraction with its operands exchanged; the flag is NOT borrow of the old values. -/
theorem subtractsWriteWrappedDifferenceThenNotBorrow : Obligations.SubtractsWriteWrappedDifferenceThenNotBorrow :=
  ⟨encodes_tableRow (.sub 0 0), encodes_tableRow (.subn 0 0), fun s x y =>
    ⟨setRegThenFlag_next (fun r => (r.toNat : Int)) s x (subResult_toNat _ (s.reg y)) (flagByte_not_subBorrow_toNat _ _),
      setRegThenFlag_next (fun r => (r.toNat : Int)) s x (subResult_toNat (s.reg y) _) (flagByte_not_subBorrow_toNat _ _)⟩⟩

/-- Settles O32: the rows of SHR and SHL leave bits 7:4 free, and the flag is bit 0 or bit 7 of the old value. -/
theorem shiftsWriteShiftedValueThenLostBit : Obligations.ShiftsWriteShiftedValueThenLostBit :=
  ⟨encodes_tableRow (.shr 0), encodes_tableRow (.shl 0), fun s x =>
    ⟨setRegThenFlag_next BitVec.toNat s x (shrResult_toNat _) (flagByte_shrFlag_toNat _),
      setRegThenFlag_next BitVec.toNat s x (shlResult_toNat _) (flagByte_shlFlag_toNat _)⟩⟩

/-- Settles O29: each of the four is one `setReg` on `V[x]`, of `V[y]` or of the bitwise operation on the old values. -/
theorem moveAndLogicWriteOnlyX : Obligations.MoveAndLogicWriteOnlyX :=
  ⟨encodes_tableRow (.mov 0 0), encodes_tableRow (.or 0 0), encodes_tableRow (.and 0 0), encodes_tableRow (.xor 0 0),
    fun s x y =>
    ⟨⟨_, rfl, setReg_reg_self s x _, sameRegsBut_setReg s x _, sameBut_setReg s x _⟩,
      ⟨_, rfl, fun b => by rw [setReg_reg_self, BitVec.getLsbD_or], sameRegsBut_setReg s x _, sameBut_setReg s x _⟩,
      ⟨_, rfl, fun b => by rw [setReg_reg_self, BitVec.getLsbD_and], sameRegsBut_setReg s x _, sameBut_setReg s x _⟩,
      ⟨_, rfl, fun b => by rw [setReg_reg_self, BitVec.getLsbD_xor], sameRegsBut_setReg s x _, sameBut_setReg s x _⟩⟩⟩

end Sys2Proof.Machine

/-! ### RAND

What RAND leaves for any input byte: a given one, or the free byte of the draw. -/

namespace Sys2Proof.Machine

open State

@[simp] theorem randWith_reg_self (rnd : Byte) (x : RegIdx) (nn : Byte) (s : State) :
    (randWith rnd x nn s).reg x = rnd &&& nn := setReg_reg_self s x _

theorem sameRegsBut_randWith (rnd : Byte) (x : RegIdx) (nn : Byte) (s : State) :
    SameRegsBut [x] s (randWith rnd x nn s) := sameRegsBut_setReg s x _

theorem sameBut_randWith (rnd : Byte) (x : RegIdx) (nn : Byte) (s : State) :
    SameBut [.V, .draws] s (randWith rnd x nn s) := by
  constructor <;> simp [randWith]

/-- RAND masks its input byte bit by bit into `V[x]` and writes nothing else but the model's draw count (R113). -/
theorem randWith_masks (rnd : Byte) (x : RegIdx) (nn : Byte) (s : State) :
    (∀ b, ((randWith rnd x nn s).reg x).getLsbD b = (rnd.getLsbD b && nn.getLsbD b)) ∧
    SameRegsBut [x] s (randWith rnd x nn s) ∧ SameBut [.V, .draws] s (randWith rnd x nn s) :=
  ⟨fun b => by rw [randWith_reg_self, BitVec.getLsbD_and], sameRegsBut_randWith rnd x nn s, sameBut_randWith rnd x nn s⟩

/-- Settles O33: the execute phase is `randWith`, on the free byte of the draw or on the byte given. -/
theorem randMasksItsInputByte : Obligations.RandMasksItsInputByte :=
  ⟨encodes_tableRow (.rand 0 0), fun s x nn =>
    ⟨⟨_, rfl, randWith_masks (Config.rnd s.draws) x nn s⟩, fun rnd => ⟨_, rfl, randWith_masks rnd x nn s⟩⟩⟩

end Sys2Proof.Machine

/-! ### DRAW

The cells and the flag of a DRAW whose rows are in memory, by the grid's coordinates. -/

namespace Sys2Proof.Machine

open State

variable {s t : State} {x y x' y' : RegIdx} {n : Nat} {px : Fin 64} {py : Fin 32}

/-- The index in the framebuffer of the cell at column px and row py (R27). -/
def gridIdx (px : Fin 64) (py : Fin 32) : CellIdx := ⟨px.val + 64 * py.val, by omega⟩

theorem cellAt_eq_getElem (s : State) (px : Fin 64) (py : Fin 32) : s.cellAt px py = s.fb[gridIdx px py] := rfl

/-- Every cell stands at one column and row of the grid (R27). -/
theorem gridIdx_surjective (k : CellIdx) : ∃ px py, gridIdx px py = k :=
  ⟨⟨k.val % 64, by omega⟩, ⟨k.val / 64, by omega⟩, Fin.ext (Nat.mod_add_div k.val 64)⟩

/-- The framebuffer is what its grid shows. -/
theorem fb_eq_of_cellAt (h : ∀ px py, t.cellAt px py = s.cellAt px py) : t.fb = s.fb := by
  refine Vector.ext fun k hk => ?_
  obtain ⟨px, py, hcell⟩ := gridIdx_surjective ⟨k, hk⟩
  simpa [cellAt_eq_getElem, hcell] using h px py

/-- A sprite position lands on a grid position exactly where both wrapped coordinates agree (R28, R115). -/
theorem spriteCell_eq_gridIdx (X Y : Byte) (row col : Nat) :
    spriteCell X Y row col = gridIdx px py ↔ px.val = (X.toNat + col) % 64 ∧ py.val = (Y.toNat + row) % 32 := by
  rw [spriteCell, gridIdx, Fin.mk.injEq]
  omega

/-- The bytes of the sprite's rows (R114). -/
def State.spriteRows (s : State) (n : Nat) : List Byte := (List.range n).map fun k => s.mem.read (s.I.toNat + k)

/-- A row of the sprite is the byte at `I` plus its number. -/
theorem spriteRows_getElem? (s : State) (n row : Nat) (b : Byte) :
    (s.spriteRows n)[row]? = some b ↔ row < n ∧ s.mem.read (s.I.toNat + row) = b := by
  simp [spriteRows, List.getElem?_eq_some_iff]

/-- The canvas DRAW ends with: all rows drawn, from the framebuffer and no collision (R114). -/
def State.drawnCanvas (s : State) (x y : RegIdx) (n : Nat) : Canvas :=
  drawRows (s.reg x) (s.reg y) 0 (s.spriteRows n) (s.fb, false)

theorem drawn_eq_drawnCanvas (s : State) (x y : RegIdx) (n : Nat) :
    s.drawn x y n = (s.setFb (s.drawnCanvas x y n).1).setReg VF (flagByte (s.drawnCanvas x y n).2) := rfl

/-- What the loops of DRAW hit is what the sprite in memory covers (R114, R115). -/
theorem hits_gridIdx (s : State) (x y : RegIdx) (n : Nat) (px : Fin 64) (py : Fin 32) :
    Hits (s.reg x) (s.reg y) 0 (s.spriteRows n) (gridIdx px py) ↔ s.SpriteOn x y n px py := by
  simp only [Hits, RowHits, SpriteOn, spriteRows_getElem?, spriteCell_eq_gridIdx, Nat.zero_add]
  constructor
  · rintro ⟨row, _, ⟨hrow, rfl⟩, col, hcol, hbit, hcell⟩
    exact ⟨row, col, hrow, hcol, hbit, hcell⟩
  · rintro ⟨row, col, hrow, hcol, hbit, hcell⟩
    exact ⟨row, _, ⟨hrow, rfl⟩, col, hcol, hbit, hcell⟩

/-- At most 15 rows do not overlap, so their loops invert every cell they hit once (R116). -/
theorem inverts_drawnCanvas (s : State) (x y : RegIdx) (hn : n ≤ 15) :
    Inverts (Hits (s.reg x) (s.reg y) 0 (s.spriteRows n)) (s.fb, false) (s.drawnCanvas x y n) :=
  inverts_drawRows _ _ _ _ _ (by rw [spriteRows, List.length_map, List.length_range]; omega)

/-- A cell under a 1-bit of the sprite is inverted (R114). -/
theorem drawn_cellAt_of_spriteOn (hn : n ≤ 15) (h : s.SpriteOn x y n px py) :
    (s.drawn x y n).cellAt px py = !s.cellAt px py :=
  ((inverts_drawnCanvas s x y hn).1 _).1 ((hits_gridIdx ..).2 h)

/-- A cell under no 1-bit of the sprite is kept (R114). -/
theorem drawn_cellAt_of_not_spriteOn (hn : n ≤ 15) (h : ¬ s.SpriteOn x y n px py) :
    (s.drawn x y n).cellAt px py = s.cellAt px py :=
  ((inverts_drawnCanvas s x y hn).1 _).2 (h ∘ (hits_gridIdx ..).1)

theorem flagByte_eq_one {f : Bool} : flagByte f = 1 ↔ f = true := by cases f <;> decide

theorem flagByte_eq_zero {f : Bool} : flagByte f = 0 ↔ ¬ f = true := by cases f <;> decide

/-- The loops' collision is a lit cell under a 1-bit of the sprite (R114, R116). -/
theorem drawnCanvas_collision_iff (s : State) (x y : RegIdx) (hn : n ≤ 15) :
    (s.drawnCanvas x y n).2 = true ↔ ∃ px py, s.SpriteOn x y n px py ∧ s.cellAt px py = true := by
  simp only [(inverts_drawnCanvas s x y hn).2, Bool.false_eq_true, false_or]
  constructor
  · rintro ⟨k, hk, hlit⟩
    obtain ⟨px, py, rfl⟩ := gridIdx_surjective k
    exact ⟨px, py, (hits_gridIdx ..).1 hk, hlit⟩
  · rintro ⟨px, py, hon, hlit⟩
    exact ⟨gridIdx px py, (hits_gridIdx ..).2 hon, hlit⟩

/-- VF is 1 exactly where a lit cell was under the sprite, whatever registers the coordinates are in (R116, R119). -/
theorem drawn_VF_eq_one (s : State) (x y : RegIdx) (hn : n ≤ 15) :
    (s.drawn x y n).reg VF = 1 ↔ ∃ px py, s.SpriteOn x y n px py ∧ s.cellAt px py = true := by
  rw [← drawnCanvas_collision_iff s x y hn, drawn_eq_drawnCanvas, setReg_reg_self, flagByte_eq_one]

/-- VF is 0 exactly where no lit cell was under the sprite (R116). -/
theorem drawn_VF_eq_zero (s : State) (x y : RegIdx) (hn : n ≤ 15) :
    (s.drawn x y n).reg VF = 0 ↔ ¬ ∃ px py, s.SpriteOn x y n px py ∧ s.cellAt px py = true := by
  rw [← drawnCanvas_collision_iff s x y hn, drawn_eq_drawnCanvas, setReg_reg_self, flagByte_eq_zero]

/-- Settles O34: the rows in memory are all drawn, and their loops invert and report exactly what the sprite covers. -/
theorem drawInvertsSpriteCellsAndReportsCollision : Obligations.DrawInvertsSpriteCellsAndReportsCollision :=
  fun s x y n hn hmem => ⟨_, exec_draw_ok x y n hmem,
    fun _ _ => ⟨drawn_cellAt_of_spriteOn hn, drawn_cellAt_of_not_spriteOn hn⟩,
    (drawn_VF_eq_one s x y hn).2, (drawn_VF_eq_zero s x y hn).2, sameRegsBut_drawn s x y n, sameBut_drawn s x y n⟩

/-- Settles O35: the first address past memory is `max I 4096`, and the record is what `raiseExec` latches. -/
theorem drawPastMemoryHalts : Obligations.DrawPastMemoryHalts :=
  fun _ x y n h0 h => ⟨_, exec_draw_bad x y n (Nat.ne_of_gt h0) h, raiseExec_status ..⟩

/-- A DRAW of no rows only clears VF (R117). -/
theorem drawn_zero (s : State) (x y : RegIdx) : s.drawn x y 0 = s.setReg VF 0 := rfl

/-- Settles O36: with no rows no address is out of range, and the state drawn is one `setReg` on VF. -/
theorem drawOfNoRowsClearsFlagOnly : Obligations.DrawOfNoRowsClearsFlagOnly :=
  fun s x y => ⟨s.setReg VF 0, drawn_zero s x y ▸ exec_draw_ok x y 0 (.inl rfl), setReg_reg_self s VF 0,
    sameRegsBut_setReg s VF 0, sameBut_setReg s VF 0⟩

/-- DRAW leaves the sprite where it was: from registers with the same coordinates it covers the same cells (R118). -/
theorem spriteOn_drawn (hx : (s.drawn x y n).reg x' = s.reg x) (hy : (s.drawn x y n).reg y' = s.reg y) :
    (s.drawn x y n).SpriteOn x' y' n px py ↔ s.SpriteOn x y n px py := by
  have hmem : (s.drawn x y n).mem = s.mem := rfl
  have hI : (s.drawn x y n).I = s.I := rfl
  rw [SpriteOn, SpriteOn, hmem, hI, hx, hy]

/-- A row with a 1-bit covers a cell. -/
theorem exists_spriteOn_of_ne_zero (s : State) (x y : RegIdx) {row : Nat} (hrow : row < n)
    (hb : s.mem.read (s.I.toNat + row) ≠ 0) : ∃ px py, s.SpriteOn x y n px py := by
  obtain ⟨k, hk, hbit⟩ : ∃ k < 8, (s.mem.read (s.I.toNat + row)).getLsbD k = true := by
    by_contra hnone
    push Not at hnone
    exact hb (BitVec.eq_of_getLsbD_eq fun k hk => by simpa using hnone k hk)
  have hcol : 7 - (7 - k) = k := by omega
  exact ⟨⟨((s.reg x).toNat + (7 - k)) % 64, by omega⟩, ⟨((s.reg y).toNat + row) % 32, by omega⟩,
    row, 7 - k, hrow, by omega, by rw [hcol, hbit], rfl, rfl⟩

/-- Settles O37: the second DRAW covers the same cells, each of which the first one inverted. -/
theorem drawTwiceRestoresScreen : Obligations.DrawTwiceRestoresScreen := by
  intro s t x y x' y' n hn hmem hexec hx hy
  obtain rfl : s.drawn x y n = t := by
    rw [exec_draw_ok x y n hmem] at hexec
    exact Host.Outcome.next.inj hexec
  have hon := fun px py => spriteOn_drawn (px := px) (py := py) hx hy
  have hsecond : ((s.drawn x y n).drawn x' y' n).reg VF = 1 ↔ ∃ px py, s.SpriteOn x y n px py ∧ s.cellAt px py = false := by
    rw [drawn_VF_eq_one _ x' y' hn]
    refine exists_congr fun px => exists_congr fun py => ?_
    rw [hon]
    exact and_congr_right fun h => by rw [drawn_cellAt_of_spriteOn hn h, Bool.not_eq_true']
  refine ⟨_, exec_draw_ok x' y' n hmem, fb_eq_of_cellAt fun px py => ?_, hsecond, ?_⟩
  · by_cases h : s.SpriteOn x y n px py
    · rw [drawn_cellAt_of_spriteOn hn ((hon px py).2 h), drawn_cellAt_of_spriteOn hn h, Bool.not_not]
    · rw [drawn_cellAt_of_not_spriteOn hn (mt (hon px py).1 h), drawn_cellAt_of_not_spriteOn hn h]
  · rintro hfirst ⟨row, hrow, hbyte⟩
    obtain ⟨px, py, h⟩ := exists_spriteOn_of_ne_zero s x y hrow hbyte
    have hunlit : s.cellAt px py = false :=
      Bool.eq_false_iff.2 fun hlit => (drawn_VF_eq_zero s x y hn).1 hfirst ⟨px, py, h, hlit⟩
    exact hsecond.2 ⟨px, py, h, hunlit⟩

end Sys2Proof.Machine

/-! ### Keypad

The keypad skips and WAIT_KEY: the key a register names, the key a scan finds, and the rewound pc. -/

namespace Sys2Proof.Machine

open State

variable {s : State}

/-- A skip on a negated condition stays exactly where the skip on the condition moves (R121). -/
theorem skipIf_not_pc (s : State) (c : Bool) : (s.skipIf (!c)).pc = if c then s.pc else s.pc + 2 := by
  rw [skipIf_pc]
  cases c <;> rfl

/-- Settles O38: where `V[x]` names a key both skips are `skipIf` on its slot, elsewhere the record is what `raiseExec`
latches. -/
theorem keySkipsTestKeyOrHalt : Obligations.KeySkipsTestKeyOrHalt :=
  fun s x =>
    ⟨fun k hk => ⟨⟨_, exec_skipKey_ok x k hk, skipIf_pc s _, sameBut_skipIf _⟩,
        ⟨_, exec_skipNokey_ok x k hk, skipIf_not_pc s _, sameBut_skipIf _⟩⟩,
      fun hbad => ⟨⟨_, exec_skipKey_bad x hbad, raiseExec_status ..⟩,
        ⟨_, exec_skipNokey_bad x hbad, raiseExec_status ..⟩⟩⟩

/-- The number of a key fits the register WAIT_KEY stores it in (R122). -/
theorem setReg_key_toNat (s : State) (x : RegIdx) (k : Fin 16) :
    ((s.setReg x (BitVec.ofNat 8 k.val)).reg x).toNat = k.val := by
  rw [setReg_reg_self, BitVec.toNat_ofNat]
  omega

/-- Settles O39: the scan of the keypad finds the lowest pressed key or none. -/
theorem waitKeyStoresLowestKeyOrRewinds : Obligations.WaitKeyStoresLowestKeyOrRewinds :=
  ⟨encodes_tableRow (.waitKey 0), fun s x =>
    ⟨fun k hk hlow => ⟨_, exec_waitKey_some x k hk hlow, setReg_key_toNat s x k, sameRegsBut_setReg s x _,
        sameBut_setReg s x _⟩,
      fun hup => ⟨_, exec_waitKey_none x hup, rfl, sameBut_setPc s _⟩⟩⟩

/-- Rewinding the pc undoes the step's advance past the word (R74, R123). -/
theorem skip_rewound (s : State) : s.skip.setPc (s.skip.pc - 2) = s := by
  rw [skip_pc, BitVec.add_sub_cancel]
  rfl

/-- A WAIT_KEY stepped with no key pressed changes nothing (R123). -/
theorem step_waitKey_none {x : RegIdx} (hi : s.NextInstr (.waitKey x)) (hup : ∀ k : Fin 16, s.keys[k] = false) :
    step s = .next s := by
  rw [step, cycle_instr hi, exec_waitKey_none (s := s.skip) x hup, skip_rewound]

/-- A WAIT_KEY stepped with a key pressed stores a pressed key and leaves the pc past its word (R123). -/
theorem step_waitKey_pressed {x : RegIdx} (hi : s.NextInstr (.waitKey x)) (hpressed : ∃ k : Fin 16, s.keys[k] = true) :
    ∃ k : Fin 16, s.keys[k] = true ∧ step s = .next (s.skip.setReg x (BitVec.ofNat 8 k.val)) := by
  obtain ⟨t, hexec⟩ := exec_next (.waitKey x) s.skip
  rcases exec_waitKey_cases hexec with ⟨k, hk, rfl⟩ | ⟨hup, -⟩
  · exact ⟨k, hk, (cycle_instr hi).trans hexec⟩
  · obtain ⟨k, hk⟩ := hpressed
    exact absurd hk (Bool.eq_false_iff.1 (hup k))

/-- Settles O40: the rewind makes a step with no key pressed a fixed point; with one pressed the scan finds a key. -/
theorem waitKeyBlocksUntilKeyPressed : Obligations.WaitKeyBlocksUntilKeyPressed := by
  refine fun s x hi => ⟨fun hup => run_of_step_self (step_waitKey_none hi hup), fun hpressed => ?_⟩
  obtain ⟨k, hk, hstep⟩ := step_waitKey_pressed hi hpressed
  exact ⟨_, hstep, rfl, rfl, k, hk, setReg_key_toNat s.skip x k⟩

end Sys2Proof.Machine

/-! ### Timers, index arithmetic and font lookup

One update of one field each; the exact numbers ADD_I and FONT_ADDR leave in `I`. -/

namespace Sys2Proof.Machine

open State

/-- Settles O41: each of the three is one update, of `V[x]`, `DT` or `ST`, with the byte it reads. -/
theorem timerInstructionsCopyOneByte : Obligations.TimerInstructionsCopyOneByte :=
  ⟨encodes_tableRow (.loadDt 0), encodes_tableRow (.setDt 0), encodes_tableRow (.setSt 0), fun s x =>
    ⟨⟨_, rfl, setReg_reg_self s x s.DT, sameRegsBut_setReg s x s.DT, sameBut_setReg s x s.DT⟩,
      ⟨_, rfl, setDT_DT s _, sameBut_setDT s _⟩, ⟨_, rfl, setST_ST s _, sameBut_setST s _⟩⟩⟩

/-- A register added to a word wraps at 16 bits (R127). -/
theorem add_zextByte_toNat (w : Word) (v : Byte) : (w + zextByte v).toNat = (w.toNat + v.toNat) % 65536 := by
  simp [zextByte]

/-- Settles O42: the exact sum modulo 65536 goes to `I` alone. -/
theorem addIndexWrapsAtSixteenBits : Obligations.AddIndexWrapsAtSixteenBits :=
  ⟨encodes_tableRow (.addI 0), fun s x => ⟨_, rfl, add_zextByte_toNat s.I (s.reg x), sameBut_setI s _⟩⟩

/-- The address of a glyph fits `I` (R128). -/
theorem glyphAddress_toNat {g : Nat} (hg : g < 16) : (BitVec.ofNat 16 (g * 5)).toNat = g * 5 := by
  rw [BitVec.toNat_ofNat]
  omega

/-- Settles O43: FONT_ADDR by its two branches. -/
theorem fontAddressOfGlyphOrHalts : Obligations.FontAddressOfGlyphOrHalts :=
  ⟨encodes_tableRow (.fontAddr 0), fun s x =>
    ⟨fun hglyph => ⟨_, exec_fontAddr_ok x hglyph, glyphAddress_toNat hglyph, sameBut_setI s _⟩,
      fun hbad => ⟨_, exec_fontAddr_bad x hbad, raiseExec_status ..⟩⟩⟩

end Sys2Proof.Machine

/-! ### Memory transfer

What the stores of BCD and STORE_REGS leave in memory, what LOAD_REGS leaves in the registers, and the two together. -/

namespace Sys2Proof.Machine

open State

variable {s t : State} {x : RegIdx}

/-- A byte stored inside memory stands there (R39). -/
theorem storeBytes_read_in (m : Memory) {a : Nat} {vs : List Byte} {k : Nat} (hk : k < vs.length) (hin : a + k < 4096) :
    (storeBytes m a vs).1.read (a + k) = vs[k] := by
  rw [storeBytes_read, if_pos ⟨Nat.le_add_right .., hin⟩, Nat.add_sub_cancel_left, List.getElem?_eq_getElem hk,
    Option.getD_some]

/-- Bytes outside those stored keep their values (R39). -/
theorem sameBytesOutside_storeBytes (s : State) (a : Nat) (vs : List Byte) :
    SameBytesOutside a vs.length s (s.setMem (storeBytes s.mem a vs).1) := by
  intro b hb
  rw [setMem_mem, storeBytes_read]
  split
  · rw [List.getElem?_eq_none (by omega), Option.getD_none]
  · rfl

/-- The decimal digits of a byte as numbers (R129). -/
theorem bcdDigits_toNat (v : Byte) :
    (bcdDigits v).map BitVec.toNat = [v.toNat / 100, v.toNat / 10 % 10, v.toNat % 10] := by
  have hv := v.isLt
  have hhundreds : v.toNat / 100 % 2 ^ 8 = v.toNat / 100 := by omega
  have htens : v.toNat / 10 % 10 % 2 ^ 8 = v.toNat / 10 % 10 := by omega
  have hones : v.toNat % 10 % 2 ^ 8 = v.toNat % 10 := by omega
  simp only [bcdDigits, List.map_cons, List.map_nil, BitVec.toNat_ofNat, hhundreds, htens, hones]

/-- BCD with its addresses in memory leaves the k-th decimal digit at `I + k` (R129). -/
theorem bcd_read (s : State) (v : Byte) (hfit : s.I.toNat + 2 < 4096) {k : Nat} (hk : k < 3) :
    ((storeBytes s.mem s.I.toNat (bcdDigits v)).1.read (s.I.toNat + k)).toNat =
      [v.toNat / 100, v.toNat / 10 % 10, v.toNat % 10][k] := by
  have hlen : k < (bcdDigits v).length := hk
  rw [storeBytes_read_in s.mem hlen (by omega)]
  simp only [← bcdDigits_toNat, List.getElem_map]

/-- Settles O44: three digits are stored in ascending order from `I`; the first address past memory is `max I 4096`. -/
theorem bcdStoresThreeDigitsOrHalts : Obligations.BcdStoresThreeDigitsOrHalts :=
  ⟨encodes_tableRow (.bcd 0), fun s x =>
    ⟨fun hfit => ⟨_, exec_bcd_ok x hfit, bcd_read s _ hfit (k := 0) (by decide), bcd_read s _ hfit (k := 1) (by decide),
        bcd_read s _ hfit (k := 2) (by decide), sameBytesOutside_storeBytes s _ (bcdDigits (s.reg x)),
        sameBut_setMem s _⟩,
      fun hbad => ⟨_, exec_bcd_bad x hbad, raiseExec_status ..⟩⟩⟩

/-- STORE_REGS that fits, byte by byte, and its frame (R130). -/
theorem exec_storeRegs_stores (x : RegIdx) (hfit : s.I.toNat + x.val < 4096) : ∃ t, exec (.storeRegs x) s = .next t ∧
    (∀ k : RegIdx, k ≤ x → t.mem.read (s.I.toNat + k.val) = s.reg k) ∧
    SameBytesOutside s.I.toNat (x.val + 1) s t ∧ SameBut [.mem] s t := by
  have hexec := exec_storeRegs_ok x hfit
  refine ⟨_, hexec, fun k hk => exec_storeRegs_read hexec hfit hk, ?_, sameBut_setMem s _⟩
  rw [← regsUpTo_length s x]
  exact sameBytesOutside_storeBytes s _ _

/-- Settles O45: STORE_REGS by its two branches. -/
theorem storeRegsCopiesRegistersOrHalts : Obligations.StoreRegsCopiesRegistersOrHalts :=
  ⟨encodes_tableRow (.storeRegs 0), fun _ x =>
    ⟨exec_storeRegs_stores x, fun hbad => ⟨_, exec_storeRegs_bad x hbad, raiseExec_status ..⟩⟩⟩

/-- What each register reads after `V[0]`..`V[x]` were written with the values of a function (R131). -/
theorem setRegsFrom_zero_reg (s : State) (x k : RegIdx) (f : Nat → Byte) :
    (s.setRegsFrom 0 ((List.range (x.val + 1)).map f)).reg k = if k ≤ x then f k.val else s.reg k := by
  rw [setRegsFrom_reg, if_pos (Nat.zero_le _), Nat.sub_zero]
  split
  · next hle =>
    have hlt : k.val < x.val + 1 := Nat.lt_succ_of_le hle
    simp [hlt]
  · next hgt =>
    rw [List.getElem?_eq_none (by simpa using hgt), Option.getD_none]

/-- LOAD_REGS that fits, register by register, and its frame (R131). -/
theorem exec_loadRegs_loads (x : RegIdx) (hfit : s.I.toNat + x.val < 4096) : ∃ t, exec (.loadRegs x) s = .next t ∧
    (∀ k : RegIdx, k ≤ x → t.reg k = s.mem.read (s.I.toNat + k.val)) ∧
    (∀ k : RegIdx, ¬ k ≤ x → t.reg k = s.reg k) ∧ SameBut [.V] s t :=
  ⟨_, exec_loadRegs_ok x hfit, fun _ hk => by rw [setRegsFrom_zero_reg, if_pos hk],
    fun _ hk => by rw [setRegsFrom_zero_reg, if_neg hk], sameBut_setRegsFrom s _ _⟩

/-- Settles O46: LOAD_REGS by its two branches. -/
theorem loadRegsCopiesMemoryOrHalts : Obligations.LoadRegsCopiesMemoryOrHalts := by
  refine ⟨encodes_tableRow (.loadRegs 0), fun s x => ⟨exec_loadRegs_loads x, fun hbad => ?_⟩⟩
  obtain ⟨part, -, hexec⟩ := exec_loadRegs_bad x hbad
  exact ⟨_, hexec, raiseExec_status ..⟩

/-- Settles O47: the load reads from the same `I` the bytes the store left, which no register write touches. -/
theorem storeThenLoadRestoresRegisters : Obligations.StoreThenLoadRestoresRegisters := by
  intro s t u x hfit hstore hsame
  have hframe : SameBut [.mem] s t := by
    rw [exec_storeRegs_ok x hfit] at hstore; cases hstore; exact sameBut_setMem s _
  have hI : u.I = s.I := (hsame.I (by simp)).trans (hframe.I (by simp))
  obtain ⟨v, hload, hloaded, hkept, hvframe⟩ := exec_loadRegs_loads (s := u) x (hI ▸ hfit)
  refine ⟨v, hload, fun k hk => ?_, hkept, hvframe⟩
  calc v.reg k = u.mem.read (u.I.toNat + k.val) := hloaded k hk
    _ = t.mem.read (s.I.toNat + k.val) := by rw [hI, hsame.mem (by simp)]
    _ = s.reg k := exec_storeRegs_read hstore hfit hk

end Sys2Proof.Machine

/-! ### Step faults

An execute phase raises a fault exactly outside the bounds of its instruction, with the code and info of its row of R133;
the word on record is the one fetched, since no instruction that ignores bits of its word can fault (log 8). -/

namespace Sys2Proof.Machine

open State

variable {s t : State} {i : Instr} {r : FaultRecord}

/-- The row of R133 for the execute phase of an instruction: the code and info of the fault it raises in `s`, and the
condition that raises it (R136). -/
def State.FaultCause (s : State) (i : Instr) (code : FaultCode) (info : Option Nat) : Prop :=
  match i with
  | .draw _ _ n => code = .memoryBounds ∧ n ≠ 0 ∧ 4096 < s.I.toNat + n ∧ info = some (max s.I.toNat 4096)
  | .bcd _ => code = .memoryBounds ∧ 4096 ≤ s.I.toNat + 2 ∧ info = some (max s.I.toNat 4096)
  | .storeRegs x | .loadRegs x =>
    code = .memoryBounds ∧ 4096 ≤ s.I.toNat + x.val ∧ info = some (max s.I.toNat 4096)
  | .skipKey x | .skipNokey x => code = .keyIndexBounds ∧ 16 ≤ (s.reg x).toNat ∧ info = some (s.reg x).toNat
  | .fontAddr x => code = .fontIndexBounds ∧ 16 ≤ (s.reg x).toNat ∧ info = some (s.reg x).toNat
  | .call _ => code = .stackOverflow ∧ s.sp.val = 16 ∧ info = none
  | .ret => code = .stackUnderflow ∧ s.sp.val = 0 ∧ info = none
  | _ => False

/-- Outside the bounds of its instruction an execute phase raises the fault of its row of R133. -/
theorem exec_raises_of_not_meetsBounds (hb : ¬ s.MeetsBounds i) : ∃ code info parts,
    exec i s = .next (s.raiseExec i code info parts) ∧ s.FaultCause i code info := by
  cases i with
  | ret =>
    have hempty : s.sp.val = 0 := by simpa [MeetsBounds] using hb
    exact ⟨_, _, _, exec_ret_empty hempty, rfl, hempty, rfl⟩
  | call nnn =>
    have hfull : s.sp.val = 16 := by have := s.sp.isLt; simp only [MeetsBounds] at hb; omega
    exact ⟨_, _, _, exec_call_full nnn hfull, rfl, hfull, rfl⟩
  | skipKey x => exact ⟨_, _, _, exec_skipKey_bad x (Nat.not_lt.1 hb), rfl, Nat.not_lt.1 hb, rfl⟩
  | skipNokey x => exact ⟨_, _, _, exec_skipNokey_bad x (Nat.not_lt.1 hb), rfl, Nat.not_lt.1 hb, rfl⟩
  | fontAddr x => exact ⟨_, _, _, exec_fontAddr_bad x (Nat.not_lt.1 hb), rfl, Nat.not_lt.1 hb, rfl⟩
  | draw x y n =>
    obtain ⟨h0, hpast⟩ : n ≠ 0 ∧ 4096 < s.I.toNat + n := by simp only [MeetsBounds] at hb; omega
    exact ⟨_, _, _, exec_draw_bad x y n h0 hpast, rfl, h0, hpast, rfl⟩
  | bcd x => exact ⟨_, _, _, exec_bcd_bad x (Nat.not_lt.1 hb), rfl, Nat.not_lt.1 hb, rfl⟩
  | storeRegs x => exact ⟨_, _, _, exec_storeRegs_bad x (Nat.not_lt.1 hb), rfl, Nat.not_lt.1 hb, rfl⟩
  | loadRegs x =>
    obtain ⟨part, -, hexec⟩ := exec_loadRegs_bad x (Nat.not_lt.1 hb)
    exact ⟨_, _, _, hexec, rfl, Nat.not_lt.1 hb, rfl⟩
  | _ => exact absurd trivial hb

/-- Inside the bounds of its instruction an execute phase keeps the latch. -/
theorem exec_status_of_meetsBounds (hb : s.MeetsBounds i) (h : exec i s = .next t) : t.status = s.status := by
  cases i with
  | ret => rw [exec_ret_ok hb] at h; cases h; rfl
  | call nnn => rw [exec_call_ok nnn hb] at h; cases h; rfl
  | skipEqImm | skipNeqImm | skipEqReg | skipNeqReg => cases h; exact (sameBut_skipIf _).status (by simp)
  | skipKey x => rw [exec_skipKey_ok x ⟨_, hb⟩ rfl] at h; cases h; exact (sameBut_skipIf _).status (by simp)
  | skipNokey x => rw [exec_skipNokey_ok x ⟨_, hb⟩ rfl] at h; cases h; exact (sameBut_skipIf _).status (by simp)
  | fontAddr x => rw [exec_fontAddr_ok x hb] at h; cases h; rfl
  | draw x y n => rw [exec_draw_ok x y n hb] at h; cases h; rfl
  | waitKey x => rcases exec_waitKey_cases h with ⟨k, -, rfl⟩ | ⟨-, rfl⟩ <;> rfl
  | bcd x => rw [exec_bcd_ok x hb] at h; cases h; rfl
  | storeRegs x => rw [exec_storeRegs_ok x hb] at h; cases h; rfl
  | loadRegs x => rw [exec_loadRegs_ok x hb] at h; cases h; exact (sameBut_setRegsFrom s _ _).status (by simp)
  | _ => cases h; rfl

/-- An instruction that can fault has no ignored bits, so the word it was decoded from is its encoding (R62; log 8). -/
theorem encode_of_not_meetsBounds {w : Word} (hd : decodeWord w = .ok i) (hb : ¬ s.MeetsBounds i) : encode i = w := by
  refine (encodeOfDecodeIsWord w i hd).2.1 fun x => ⟨?_, ?_⟩ <;>
  · rintro rfl
    exact hb trivial

/-- The record of a step that halts in its execute phase (R133, R135, R136). -/
theorem exec_skip_halts (hi : s.NextInstr i) (h : exec i s.skip = .next t) (ht : t.status = .halted r) :
    ∃ code info, s.FaultCause i code info ∧
      r = { code := code, command := .step, pc0 := some s.pc, op := some (s.wordAt s.pc.toNat), info := info } := by
  have hb : ¬ s.skip.MeetsBounds i := fun hb => by
    rw [exec_status_of_meetsBounds hb h, skip_status, hi.ready] at ht; cases ht
  obtain ⟨code, info, parts, hraise, hcause⟩ := exec_raises_of_not_meetsBounds hb
  rw [hraise] at h; cases h
  rw [raiseExec_status, skip_pc, BitVec.add_sub_cancel, encode_of_not_meetsBounds hi.decodes hb] at ht; cases ht
  exact ⟨code, info, hcause, rfl⟩

/-- Settles O14: a step that halts does so in its fetch, its decoder or its execute phase. -/
theorem stepFaultRecordStatesItsCause : Obligations.StepFaultRecordStatesItsCause := by
  intro s t r hready h ht
  rcases cycle_cases exec s with ⟨r', hs, -⟩ | ⟨-, hp, hc⟩ | ⟨-, hp, ⟨e, hd⟩, hc⟩ | ⟨i, hi, hc⟩
  · rw [hready] at hs; cases hs
  · rw [step, hc] at h; cases h
    cases ht
    exact ⟨rfl, rfl, fun _ => ⟨rfl, rfl, rfl⟩, fun hp' => by omega⟩
  · rw [step, hc] at h; cases h
    cases ht
    exact ⟨rfl, rfl, fun hp' => by omega, fun _ => by rw [hd]; exact ⟨rfl, rfl, rfl⟩⟩
  · rw [step, hc] at h
    obtain ⟨code, info, hcause, rfl⟩ := exec_skip_halts hi h ht
    have hp := hi.inRange
    refine ⟨rfl, rfl, fun hp' => by omega, fun _ => ⟨rfl, ?_⟩⟩
    rw [hi.decodes]
    cases i <;> exact hcause

end Sys2Proof.Machine

/-! ### Reset and boot

Two resets, the first fetch after a load, and the run of a machine with nothing loaded. -/

namespace Sys2Proof.Machine

open State

variable {s : State}

/-- Settles O2: the state a reset leaves takes from the state before only the model's own counter. -/
theorem resetIsIdempotentAndHistoryFree : Obligations.ResetIsIdempotentAndHistoryFree :=
  fun s u => ⟨s.resetAll, u.resetAll, rfl, rfl, rfl, rfl, by constructor <;> simp [reg]⟩

/-- load of an image that fits, from READY (R73). -/
theorem perform_load_of_fits {bytes : List Byte} (hs : s.status = .ready) (h : bytes.length ≤ 3584) :
    Command.perform (.load bytes) s = .next (s.setMem (writeBytes s.mem 0x200 bytes), .ok) := by
  rw [← loadProgram_of_fits h]
  exact answer_whenReady_ok hs (by rw [loadProgram_of_fits h]; exact hs)

/-- A run performs its first command and goes on from there. -/
theorem performAll_cons {c : Command} {cs : List Command} {t : State} {reply : Reply} (h : c.perform s = .next (t, reply)) :
    Command.performAll (c :: cs) s = Command.performAll cs t := by
  rw [Command.performAll, h]

/-- At the pc 0x200 a loaded image is fetched from its start, high byte first (R75, R152). -/
theorem fetch_loaded (hi lo : Byte) (rest : List Byte) (hpc : s.pc = 0x200) :
    (s.setMem (writeBytes s.mem 0x200 (hi :: lo :: rest))).fetch = .ok (wordOfBytes hi lo) := by
  have hhigh : (writeBytes s.mem 0x200 (hi :: lo :: rest)).read 0x200 = hi :=
    writeBytes_read_in s.mem 0x200 (k := 0) (by simp)
  have hlow : (writeBytes s.mem 0x200 (hi :: lo :: rest)).read (0x200 + 1) = lo :=
    writeBytes_read_in s.mem 0x200 (k := 1) (by simp)
  have hnum : s.pc.toNat = 0x200 := by rw [hpc]; rfl
  rw [fetch_eq, setMem_pc, setMem_mem, hnum, if_pos (by decide), hhigh, hlow]

/-- Settles O54: load writes memory alone, and reset leaves the pc where load writes. -/
theorem bootFetchesFirstProgramWord : Obligations.BootFetchesFirstProgramWord := by
  intro s hi lo rest hfits
  have hreset : Command.perform .reset s = .next (s.resetAll, .ok) := rfl
  have hload {u : State} (hu : u.status = .ready) := perform_load_of_fits (bytes := hi :: lo :: rest) hu hfits
  refine ⟨⟨_, ?_, rfl, rfl, fetch_loaded (s := s.resetAll) hi lo rest rfl⟩,
    fun hs => ⟨_, performAll_cons (hload hs), rfl⟩⟩
  rw [performAll_cons hreset, performAll_cons (hload rfl)]
  rfl

/-- The reset state with the pc at word `j` of the program space. -/
def emptyAt (j : Nat) : State := State.reset.setPc (BitVec.ofNat 16 (0x200 + 2 * j))

theorem emptyAt_pc_toNat {j : Nat} (hj : j ≤ 1792) : (emptyAt j).pc.toNat = 0x200 + 2 * j := by
  rw [emptyAt, setPc_pc, BitVec.toNat_ofNat]
  omega

/-- Every word of the empty program space is a NOP (R37, R87). -/
theorem nextInstr_emptyAt {j : Nat} (hj : j < 1792) : (emptyAt j).NextInstr .nop := by
  have hpc := emptyAt_pc_toNat (Nat.le_of_lt hj)
  have hzero (a : Nat) (ha : 80 ≤ a) : (emptyAt j).mem.read a = 0 := by
    rw [emptyAt, setPc_mem, State.reset, Memory.read_nil, Memory.background, dif_neg (Nat.not_lt.2 ha)]
  have hword : (emptyAt j).wordAt (emptyAt j).pc.toNat = 0 := by
    rw [wordAt, hzero _ (by omega), hzero _ (by omega)]
    rfl
  exact ⟨rfl, by omega, by rw [hword]; rfl⟩

/-- A NOP's step goes on to the next word (R22). -/
theorem step_emptyAt {j : Nat} (hj : j < 1792) : step (emptyAt j) = .next (emptyAt (j + 1)) := by
  have hpc : (emptyAt j).pc + 2 = BitVec.ofNat 16 (0x200 + 2 * (j + 1)) := by
    apply BitVec.eq_of_toNat_eq
    rw [BitVec.toNat_add, emptyAt_pc_toNat (Nat.le_of_lt hj), BitVec.toNat_ofNat]
    rfl
  rw [step, cycle_instr (nextInstr_emptyAt hj), skip, hpc]
  rfl

/-- A run from reset without a load is, after `k` NOPs, a run from word `k` on. -/
theorem run_reset_eq_run_emptyAt (n : Nat) {k : Nat} (hk : k ≤ 1792) :
    Host.Core.run core (n + k) core.reset = Host.Core.run core n (emptyAt k) := by
  induction k generalizing n with
  | zero => rfl
  | succ k ih =>
    calc Host.Core.run core (n + (k + 1)) core.reset
      _ = Host.Core.run core (n + 1 + k) core.reset := by rw [Nat.add_comm k 1, Nat.add_assoc]
      _ = Host.Core.run core (n + 1) (emptyAt k) := ih (n + 1) (Nat.le_of_succ_le hk)
      _ = Host.Core.run core n (emptyAt (k + 1)) := run_succ_of_step (step_emptyAt hk) n

/-- Settles O55: 1792 NOPs fill the program space, and past it the fetch is out of range. -/
theorem emptyMachineRunsNopsThenHalts : Obligations.EmptyMachineRunsNopsThenHalts := by
  refine ⟨fun k hk => ⟨emptyAt k, ?_, emptyAt_pc_toNat hk, sameBut_setPc _ _⟩, ?_⟩
  · have hrun := run_reset_eq_run_emptyAt 0 hk
    rwa [Nat.zero_add] at hrun
  · have hstep : step (emptyAt 1792) = .next ((emptyAt 1792).raiseFetch 4096) := cycle_outOfRange rfl (by decide)
    exact ⟨_, (run_reset_eq_run_emptyAt 1 (Nat.le_refl 1792)).trans (run_succ_of_step hstep 0), raiseFetch_status ..⟩

end Sys2Proof.Machine
